-- ==== Sys2Proof/Word.lean ====
section
/-! DEFINITION. The bit widths of the machine (spec R6, R8, R61 to R63). -/

namespace Sys2Proof

/-- A register, a memory cell, an instruction word, the pc, an address: 32 bits (R6 `XLEN`, R8). -/
abbrev Word := BitVec 32

/-- A 5-bit register number, as the fields `rs`, `rt` and `rd` hold it (R20). -/
abbrev RegId := BitVec 5

/-- The 5-bit shift distance, 0 to 31 (R69). -/
abbrev Shamt := BitVec 5

/-- The 16-bit immediate field of an I-type word (R62). -/
abbrev Imm16 := BitVec 16

/-- The 26-bit address field of a J-type word (R63). -/
abbrev Addr26 := BitVec 26

/-- A primary or secondary operation code: the fields `opcode` and `funct` (R64). -/
abbrev OpCode := BitVec 6

end Sys2Proof
end

