-- ==== Sys2Proof/Config.lean ====
section
/-! DEFINITION. The parameters of the machine (spec R6). They are fixed for a run (R33). Their default
values are `Sys2Proof.defaultParams` in Machine/Parameters.lean. -/

namespace Sys2Proof.Config

/-- What a word of a doubtful kind does when executed: advance the pc and nothing else, or halt
(R6 `UNRECOGNIZED_POLICY`, `SYSTEM_POLICY`). -/
inductive Policy where
  | nop
  | halt
  deriving DecidableEq, Repr

/-- The parameters that the step, the decoder and the loader read (R6). `XLEN` and `NREGS` are fixed at 32;
`LABEL_IMM` is an argument of the assembler (R100) and `MAX_STEPS` one of a runner (R201). -/
structure Params where
  /-- `TEXT_BASE`: the address of the first instruction and the reset value of the pc. -/
  textBase : Word
  /-- `DATA_BASE`: the address of the first data declaration. -/
  dataBase : Word
  /-- `ZERO_REG_HARDWIRED`: whether register 0 reads as zero and discards writes. -/
  zeroRegHardwired : Bool
  /-- `UNRECOGNIZED_POLICY`. -/
  unrecognizedPolicy : Policy
  /-- `SYSTEM_POLICY`. -/
  systemPolicy : Policy
  /-- `FUNCT_MUL`: the funct code of `mul` under opcode 000000. -/
  functMul : OpCode
  deriving DecidableEq, Repr

end Sys2Proof.Config
end

