-- ==== Sys2Proof/Machine/Parameters.lean ====
section
/-! DEFINITION. The default values of the parameters (spec R6). -/

namespace Sys2Proof

/-- The "default" column of R6 (decisions D2, D9, D11, D13, D14). -/
def defaultParams : Config.Params where
  textBase := 0x00400000#32
  dataBase := 0x10010000#32
  zeroRegHardwired := true
  unrecognizedPolicy := .nop
  systemPolicy := .nop
  functMul := 0b011000#6

end Sys2Proof
end

