-- ==== Sys2Proof/Syntax.lean ====
section
/-! DEFINITION. The instructions: one constructor per row of spec/opcode_table.json, operands in the order of
the source form (spec R75, R95). -/

namespace Sys2Proof

/-- The 26 machine instructions (R70), then the 4 pseudo-instructions (R96 to R99), which are assembler input
and which the decoder never returns (R75). -/
inductive Instr where
  /-- R110 -/
  | add (rd rs rt : RegId)
  /-- R111 -/
  | sub (rd rs rt : RegId)
  /-- R112 -/
  | and (rd rs rt : RegId)
  /-- R113 -/
  | or (rd rs rt : RegId)
  /-- R114 -/
  | xor (rd rs rt : RegId)
  /-- R115 -/
  | nor (rd rs rt : RegId)
  /-- R116 -/
  | slt (rd rs rt : RegId)
  /-- R117 -/
  | sltu (rd rs rt : RegId)
  /-- R118 -/
  | mul (rd rs rt : RegId)
  /-- R120 -/
  | sll (rd rt : RegId) (shamt : Shamt)
  /-- R121 -/
  | srl (rd rt : RegId) (shamt : Shamt)
  /-- R122 -/
  | sra (rd rt : RegId) (shamt : Shamt)
  /-- R155 -/
  | jr (rs : RegId)
  /-- R160 -/
  | syscall
  /-- R161: the spec's `break` (a word of Lean's own). -/
  | brk
  /-- R140 -/
  | addi (rt rs : RegId) (imm : Imm16)
  /-- R141 -/
  | slti (rt rs : RegId) (imm : Imm16)
  /-- R142 -/
  | andi (rt rs : RegId) (imm : Imm16)
  /-- R143 -/
  | ori (rt rs : RegId) (imm : Imm16)
  /-- R144 -/
  | xori (rt rs : RegId) (imm : Imm16)
  /-- R130: `lw rt, imm(rs)`. -/
  | lw (rt rs : RegId) (imm : Imm16)
  /-- R131: `sw rt, imm(rs)`. -/
  | sw (rt rs : RegId) (imm : Imm16)
  /-- R151: `imm` is the signed distance in words from the next instruction (R67). -/
  | beq (rs rt : RegId) (imm : Imm16)
  /-- R152 -/
  | bne (rs rt : RegId) (imm : Imm16)
  /-- R153: `addr` is the target shifted right by 2 (R68). -/
  | j (addr : Addr26)
  /-- R154 -/
  | jal (addr : Addr26)
  /-- R96 -/
  | move (rd rs : RegId)
  /-- R97 -/
  | nop
  /-- R98 -/
  | li (rt : RegId) (imm : Imm16)
  /-- R99: `imm` is what the assembler's `LABEL_IMM` gave. -/
  | la (rt : RegId) (imm : Imm16)
  deriving DecidableEq, Repr

/-- What the decoder finds a word to be (R71). -/
inductive Kind where
  | add | sub | and | or | xor | nor | slt | sltu | mul
  | sll | srl | sra
  | jr | syscall | brk
  | addi | slti | andi | ori | xori
  | lw | sw
  | beq | bne | j | jal
  | unrecognized
  deriving DecidableEq, Repr

/-- The three layouts (R61 to R63). -/
inductive Format where
  | r
  | i
  | j
  deriving DecidableEq, Repr

end Sys2Proof
end

