-- ==== Sys2Proof/WellFormed.lean ====
section
/-! DEFINITION. What counts as well formed: an instruction that can stand in memory, admissible parameters, and
the ranges of source operands. The fields of `Instr` have the exact widths of the encoding, so every register
number, shift distance and immediate in one is in range. -/

namespace Sys2Proof

/-- One of the 26 machine instructions: what the decoder can return (R70, R75). A pseudo-instruction is not
one of them. -/
def Instr.wf : Instr → Bool
  | .move _ _ | .nop | .li _ _ | .la _ _ => false
  | .add _ _ _ | .sub _ _ _ | .and _ _ _ | .or _ _ _ | .xor _ _ _ | .nor _ _ _ => true
  | .slt _ _ _ | .sltu _ _ _ | .mul _ _ _ => true
  | .sll _ _ _ | .srl _ _ _ | .sra _ _ _ => true
  | .jr _ | .syscall | .brk => true
  | .addi _ _ _ | .slti _ _ _ | .andi _ _ _ | .ori _ _ _ | .xori _ _ _ => true
  | .lw _ _ _ | .sw _ _ _ | .beq _ _ _ | .bne _ _ _ | .j _ | .jal _ => true

/-- The functs of the R-type rows other than `mul` (R70). -/
def otherFuncts : List OpCode :=
  [0b000000#6, 0b000010#6, 0b000011#6, 0b001000#6, 0b001100#6, 0b001101#6, 0b100000#6, 0b100010#6,
   0b100100#6, 0b100101#6, 0b100110#6, 0b100111#6, 0b101010#6, 0b101011#6]

/-- Admissible parameters: `FUNCT_MUL` "is not the funct of another row" (R70) and `TEXT_BASE` is a multiple
of 4 (R27). -/
def Config.Params.wf (p : Config.Params) : Bool :=
  !otherFuncts.contains p.functMul && p.textBase.toNat % 4 == 0

/-- The range of an I-type immediate and of a `li` literal (R84, R90). -/
def immLiteralOk (n : Int) : Bool := decide (-32768 ≤ n) && decide (n ≤ 32767)

/-- The range of a shift amount (R82, R90). -/
def shamtLiteralOk (n : Int) : Bool := decide (0 ≤ n) && decide (n ≤ 31)

/-- The range of a `.word` value (R90). -/
def wordLiteralOk (n : Int) : Bool := decide (-2147483648 ≤ n) && decide (n ≤ 4294967295)

/-- A branch at `a` can reach `t`: the distance is a whole number of words within the field (R85). That the distance
is one of unwrapped integers, so that a branch across `2^32` is out of reach (notes/assumptions/28.md), and that a
label off the word grid is (24.md), is the model's choice. -/
def branchReaches (a t : Word) : Bool :=
  let d : Int := (t.toNat : Int) - ((a.toNat : Int) + 4)
  decide (d % 4 = 0) && immLiteralOk (d / 4)

/-- A jump at `a` can reach `t`: the same top four bits (R86), and `t` a multiple of 4, as every text label is
(R91). That a target off the word grid is out of reach is the model's choice (notes/assumptions/24.md). -/
def jumpReaches (a t : Word) : Bool :=
  t.extractLsb' 28 4 == a.extractLsb' 28 4 && t.extractLsb' 0 2 == 0#2

end Sys2Proof
end

