-- ==== Sys2Proof/Decode.lean ====
section
/-! DEFINITION. The decoder and, after it, the encoder (spec R60 to R87). -/

namespace Sys2Proof

/-! ### Fields and immediates -/

/-- `w[31:26]` (R64). -/
def opcodeOf (w : Word) : OpCode := w.extractLsb' 26 6
/-- `w[25:21]` (R64). -/
def rsOf (w : Word) : RegId := w.extractLsb' 21 5
/-- `w[20:16]` (R64). -/
def rtOf (w : Word) : RegId := w.extractLsb' 16 5
/-- `w[15:11]` (R64). -/
def rdOf (w : Word) : RegId := w.extractLsb' 11 5
/-- `w[10:6]` (R64). -/
def shamtOf (w : Word) : Shamt := w.extractLsb' 6 5
/-- `w[5:0]` (R64). -/
def functOf (w : Word) : OpCode := w.extractLsb' 0 6
/-- `w[15:0]` (R64). -/
def imm16Of (w : Word) : Imm16 := w.extractLsb' 0 16
/-- `w[25:0]` (R64). -/
def addr26Of (w : Word) : Addr26 := w.extractLsb' 0 26

/-- `sext_32` (R10, R65). -/
def sext32 (v : Imm16) : Word := v.signExtend 32

/-- `zext_32` (R10, R66). -/
def zext32 (v : Imm16) : Word := v.setWidth 32

/-- `addr26 << 2`, a 28-bit value in 32 bits (R68, R77). -/
def wordAddress (t : Addr26) : Word := t.setWidth 32 <<< 2

/-- The target of a branch at `a` (R67, R76, R150). -/
def branchTarget (a : Word) (imm : Imm16) : Word := a + 4#32 + (sext32 imm <<< 2)

/-! ### The opcode map -/

/-- The R-type rows whose funct no parameter changes (R70). -/
def fixedRRows : List (OpCode × Kind) :=
  [(0b000000#6, .sll), (0b000010#6, .srl), (0b000011#6, .sra), (0b001000#6, .jr),
   (0b001100#6, .syscall), (0b001101#6, .brk)] ++
  [(0b100000#6, .add), (0b100010#6, .sub), (0b100100#6, .and), (0b100101#6, .or),
   (0b100110#6, .xor), (0b100111#6, .nor), (0b101010#6, .slt), (0b101011#6, .sltu)]

/-- The R-type rows, selected by funct under opcode 000000 (R70). -/
def rRows (p : Config.Params) : List (OpCode × Kind) := fixedRRows ++ [(p.functMul, .mul)]

/-- The I-type and J-type rows, selected by opcode (R70). -/
def opRows : List (OpCode × Kind) :=
  [(0b000010#6, .j), (0b000011#6, .jal), (0b000100#6, .beq), (0b000101#6, .bne)] ++
  [(0b001000#6, .addi), (0b001010#6, .slti), (0b001100#6, .andi), (0b001101#6, .ori),
   (0b001110#6, .xori), (0b100011#6, .lw), (0b101011#6, .sw)]

/-- The kind of the row with this code; a code with no row is unrecognized (R72 to R74). -/
def kindOfCode : List (OpCode × Kind) → OpCode → Kind
  | [], _ => .unrecognized
  | (c, k) :: rows, x => if x = c then k else kindOfCode rows x

/-- The code of the row of this kind, for the encoder ("the same tables", R71). -/
def codeOfKind : List (OpCode × Kind) → Kind → OpCode
  | [], _ => 0#6
  | (c, k) :: rows, x => if x = k then c else codeOfKind rows x

/-- The class of a word by its leading 6 bits (R71). -/
def formatOf (w : Word) : Format :=
  if opcodeOf w = 0b000000#6 then .r
  else if opcodeOf w = 0b000010#6 ∨ opcodeOf w = 0b000011#6 then .j
  else .i

/-- The kind of a word (R71 to R74): by funct for class R, by the full opcode for the others. -/
def kindOf (p : Config.Params) (w : Word) : Kind :=
  match formatOf w with
  | .r => kindOfCode (rRows p) (functOf w)
  | .j => kindOfCode opRows (opcodeOf w)
  | .i => kindOfCode opRows (opcodeOf w)

/-! ### The decoder -/

/-- The decoded record (R75): the kind, every field of R64 whatever the kind, and three derived values. -/
structure Decoded where
  kind : Kind
  opcode : OpCode
  rs : RegId
  rt : RegId
  rd : RegId
  shamt : Shamt
  funct : OpCode
  imm16 : Imm16
  addr26 : Addr26
  /-- `sext_32(imm16)` (R65). -/
  simm : Word
  /-- The displayed branch target (R76). -/
  btarget : Word
  /-- The displayed jump target (R77). -/
  jtarget : Word
  deriving DecidableEq, Repr

/-- `decode(w, a)` (R71): total, pure; `a` is used for the displayed branch target only. -/
def decode (p : Config.Params) (w a : Word) : Decoded where
  kind := kindOf p w
  opcode := opcodeOf w
  rs := rsOf w
  rt := rtOf w
  rd := rdOf w
  shamt := shamtOf w
  funct := functOf w
  imm16 := imm16Of w
  addr26 := addr26Of w
  simm := sext32 (imm16Of w)
  btarget := branchTarget a (imm16Of w)
  jtarget := wordAddress (addr26Of w)

/-- The instruction a record stands for, its operands read from the fields its kind uses (R75); none when the
word is unrecognized (R74). -/
def Decoded.toInstr (d : Decoded) : Option Instr :=
  match d.kind with
  | .add => some (.add d.rd d.rs d.rt)
  | .sub => some (.sub d.rd d.rs d.rt)
  | .and => some (.and d.rd d.rs d.rt)
  | .or => some (.or d.rd d.rs d.rt)
  | .xor => some (.xor d.rd d.rs d.rt)
  | .nor => some (.nor d.rd d.rs d.rt)
  | .slt => some (.slt d.rd d.rs d.rt)
  | .sltu => some (.sltu d.rd d.rs d.rt)
  | .mul => some (.mul d.rd d.rs d.rt)
  | .sll => some (.sll d.rd d.rt d.shamt)
  | .srl => some (.srl d.rd d.rt d.shamt)
  | .sra => some (.sra d.rd d.rt d.shamt)
  | .jr => some (.jr d.rs)
  | .syscall => some .syscall
  | .brk => some .brk
  | .addi => some (.addi d.rt d.rs d.imm16)
  | .slti => some (.slti d.rt d.rs d.imm16)
  | .andi => some (.andi d.rt d.rs d.imm16)
  | .ori => some (.ori d.rt d.rs d.imm16)
  | .xori => some (.xori d.rt d.rs d.imm16)
  | .lw => some (.lw d.rt d.rs d.imm16)
  | .sw => some (.sw d.rt d.rs d.imm16)
  | .beq => some (.beq d.rs d.rt d.imm16)
  | .bne => some (.bne d.rs d.rt d.imm16)
  | .j => some (.j d.addr26)
  | .jal => some (.jal d.addr26)
  | .unrecognized => none

/-- The instruction a word is, which no address changes (R71). -/
def decodeWord (p : Config.Params) (w : Word) : Option Instr := (decode p w 0#32).toInstr

/-- The instruction the decoder reads from a word numbered as spec/opcode_table.json numbers it, under the
default parameters. One instruction is one 32-bit word (R60), which is one memory cell (R45). -/
def decodeTableWord (nbits w : Nat) : Option Instr :=
  decodeWord defaultParams (BitVec.ofNat 32 (w % 2 ^ nbits))

/-! ### The encoder -/

/-- The R-type layout under opcode 000000 (R61). -/
def rFormat (rs rt rd : RegId) (shamt : Shamt) (funct : OpCode) : Word :=
  0b000000#6 ++ rs ++ rt ++ rd ++ shamt ++ funct

/-- The I-type layout (R62). -/
def iFormat (opcode : OpCode) (rs rt : RegId) (imm : Imm16) : Word := opcode ++ rs ++ rt ++ imm

/-- The J-type layout (R63). -/
def jFormat (opcode : OpCode) (addr : Addr26) : Word := opcode ++ addr

/-- The instruction a pseudo-instruction is assembled to (R96 to R99); a machine instruction is itself. -/
def Instr.expand : Instr → Instr
  | .move rd rs => .add rd rs 0#5
  | .nop => .sll 0#5 0#5 0#5
  | .li rt imm => .addi rt 0#5 imm
  | .la rt imm => .addi rt 0#5 imm
  | .add rd rs rt => .add rd rs rt
  | .sub rd rs rt => .sub rd rs rt
  | .and rd rs rt => .and rd rs rt
  | .or rd rs rt => .or rd rs rt
  | .xor rd rs rt => .xor rd rs rt
  | .nor rd rs rt => .nor rd rs rt
  | .slt rd rs rt => .slt rd rs rt
  | .sltu rd rs rt => .sltu rd rs rt
  | .mul rd rs rt => .mul rd rs rt
  | .sll rd rt sh => .sll rd rt sh
  | .srl rd rt sh => .srl rd rt sh
  | .sra rd rt sh => .sra rd rt sh
  | .jr rs => .jr rs
  | .syscall => .syscall
  | .brk => .brk
  | .addi rt rs imm => .addi rt rs imm
  | .slti rt rs imm => .slti rt rs imm
  | .andi rt rs imm => .andi rt rs imm
  | .ori rt rs imm => .ori rt rs imm
  | .xori rt rs imm => .xori rt rs imm
  | .lw rt rs imm => .lw rt rs imm
  | .sw rt rs imm => .sw rt rs imm
  | .beq rs rt imm => .beq rs rt imm
  | .bne rs rt imm => .bne rs rt imm
  | .j t => .j t
  | .jal t => .jal t

/-- The word of `rd, rs, rt` instructions: the shift amount is zero (R81). -/
def encodeRegs (p : Config.Params) (k : Kind) (rd rs rt : RegId) : Word :=
  rFormat rs rt rd 0#5 (codeOfKind (rRows p) k)

/-- The word of `rd, rt, shamt` instructions: `rs` is zero (R82). -/
def encodeShift (p : Config.Params) (k : Kind) (rd rt : RegId) (sh : Shamt) : Word :=
  rFormat 0#5 rt rd sh (codeOfKind (rRows p) k)

/-- The word of an I-type instruction (R84, R85). -/
def encodeImm (k : Kind) (rs rt : RegId) (imm : Imm16) : Word :=
  iFormat (codeOfKind opRows k) rs rt imm

/-- The word of an instruction (R80 to R86, R96 to R99). The operands of a branch or jump are its fields; the
assembler computes them from the target's address (`resolve` in Machine/Assembler.lean). -/
def encode (p : Config.Params) : Instr → Word
  | .add rd rs rt => encodeRegs p .add rd rs rt
  | .sub rd rs rt => encodeRegs p .sub rd rs rt
  | .and rd rs rt => encodeRegs p .and rd rs rt
  | .or rd rs rt => encodeRegs p .or rd rs rt
  | .xor rd rs rt => encodeRegs p .xor rd rs rt
  | .nor rd rs rt => encodeRegs p .nor rd rs rt
  | .slt rd rs rt => encodeRegs p .slt rd rs rt
  | .sltu rd rs rt => encodeRegs p .sltu rd rs rt
  | .mul rd rs rt => encodeRegs p .mul rd rs rt
  | .sll rd rt sh => encodeShift p .sll rd rt sh
  | .srl rd rt sh => encodeShift p .srl rd rt sh
  | .sra rd rt sh => encodeShift p .sra rd rt sh
  | .jr rs => rFormat rs 0#5 0#5 0#5 (codeOfKind (rRows p) .jr)
  | .syscall => rFormat 0#5 0#5 0#5 0#5 (codeOfKind (rRows p) .syscall)
  | .brk => rFormat 0#5 0#5 0#5 0#5 (codeOfKind (rRows p) .brk)
  | .addi rt rs imm => encodeImm .addi rs rt imm
  | .slti rt rs imm => encodeImm .slti rs rt imm
  | .andi rt rs imm => encodeImm .andi rs rt imm
  | .ori rt rs imm => encodeImm .ori rs rt imm
  | .xori rt rs imm => encodeImm .xori rs rt imm
  | .lw rt rs imm => encodeImm .lw rs rt imm
  | .sw rt rs imm => encodeImm .sw rs rt imm
  | .beq rs rt imm => encodeImm .beq rs rt imm
  | .bne rs rt imm => encodeImm .bne rs rt imm
  | .j t => jFormat (codeOfKind opRows .j) t
  | .jal t => jFormat (codeOfKind opRows .jal) t
  | .move rd rs => encodeRegs p .add rd rs 0#5
  | .nop => encodeShift p .sll 0#5 0#5 0#5
  | .li rt imm => encodeImm .addi 0#5 rt imm
  | .la rt imm => encodeImm .addi 0#5 rt imm

end Sys2Proof
end

