-- ==== Sys2Proof/Machine/Flags.lean ====
section
/-! DEFINITION. The machine has no flags (spec R30): a compare gives the word 1 or 0, which goes to a general
register. The comparisons stand here. -/

namespace Sys2Proof.Machine

/-- The word `0x00000001` or `0x00000000` (R116). -/
def truthWord (b : Bool) : Word := if b then 1#32 else 0#32

/-- `s(a) < s(b)`, of the signed readings themselves (R116, R141). -/
def signedLess (a b : Word) : Bool := decide (a.toInt < b.toInt)

/-- `u(a) < u(b)` (R117). -/
def unsignedLess (a b : Word) : Bool := decide (a.toNat < b.toNat)

end Sys2Proof.Machine
end

