-- ==== Sys2Proof/Machine/State.lean ====
section
/-! DEFINITION. The state of the machine as plain data (spec R20 to R35), the reasons a step can stop, and the
state after reset. -/

namespace Sys2Proof.Machine

/-- The run state (R28). -/
inductive RunState where
  | running
  | halted
  deriving DecidableEq, Repr

/-- The memory: pairs of a key and the word of its cell, keys strictly rising and below `2^32`. A key that no
pair lists is absent (R29, R41); a listed key is present whatever its word. -/
abbrev Mem := List (Nat × Word)

/-- The whole state: register file, pc, run state, memory (R20, R25, R28, R29), and beside them the parameters
of the machine, which no step changes (R33; notes/assumptions/2.md). -/
structure State where
  /-- The cells of `x[0]` to `x[31]` (R20). -/
  regs : Vector Word 32
  /-- The address of the instruction of this step (R25). -/
  pc : Word
  runState : RunState
  mem : Mem
  /-- The parameters of R6. -/
  params : Config.Params
  deriving DecidableEq, Repr

/-- The reasons a step faults: none. No instruction and no event raises an exception (R170) and `step` is total
(R184), so there is no constructor, and no step can answer a fault. -/
inductive Fault where
  deriving DecidableEq, Repr

/-- The reasons a step is refused. No meaning of this model refuses. -/
inductive Refusal where
  /-- Raised by an arm of `exec` whose instruction has no meaning yet; safe (the model stops). No arm does. -/
  | notModelled (mnemonic : String)
  deriving DecidableEq, Repr

/-- The state after reset under the parameters `p` (R34, R190): every register zero, the pc at `TEXT_BASE`,
Running, every key absent. -/
def State.resetWith (p : Config.Params) : State where
  regs := Vector.replicate 32 0#32
  pc := p.textBase
  runState := .running
  mem := []
  params := p

/-- The state after reset under the default parameters (R6, R34, R190). -/
def State.reset : State := State.resetWith defaultParams

end Sys2Proof.Machine
end

