-- ==== Sys2Proof/Machine/Ops.lean ====
section
/-! DEFINITION. The named operations over memory, registers, pc and run state. The machine has no exception to
take and none to return from (spec R170, R175, R176), so no operation for either stands here. -/

namespace Sys2Proof.Machine

/-! ### Memory -/

/-- The word of the cell at key `a`, none when the key is absent (R29). -/
def Mem.lookup : Mem → Nat → Option Word
  | [], _ => none
  | (k, v) :: m, a => if a = k then some v else Mem.lookup m a

/-- Makes key `a` present with word `w`, keeping the keys in rising order (R43). -/
def Mem.insert : Mem → Nat → Word → Mem
  | [], a, w => [(a, w)]
  | (k, v) :: m, a, w =>
    if a < k then (a, w) :: (k, v) :: m
    else if a = k then (a, w) :: m
    else (k, v) :: Mem.insert m a w

/-- Keys strictly rising from `lo` on, all below `2^32`. -/
def Mem.risingFrom : Nat → Mem → Bool
  | _, [] => true
  | lo, (k, _) :: m => decide (lo ≤ k) && decide (k < 2 ^ 32) && Mem.risingFrom (k + 1) m

/-- The canonical form: keys strictly rising, each a 32-bit address (R40). -/
def Mem.wf (m : Mem) : Bool := Mem.risingFrom 0 m

/-- `MemPresent(a)` (R41). -/
def State.memPresent (s : State) (a : Word) : Bool := (Mem.lookup s.mem a.toNat).isSome

/-- `MemRead(a, 4)`: the word of the cell at exactly key `a`, zero when it is absent; changes nothing (R42). -/
def State.memRead (s : State) (a : Word) : Word := (Mem.lookup s.mem a.toNat).getD 0#32

/-- `MemWrite(a, 4, v)`: the cell at exactly key `a` becomes present with word `v` (R43). -/
def State.memWrite (s : State) (a v : Word) : State := { s with mem := Mem.insert s.mem a.toNat v }

/-- Fetch: the word of the cell at key `pc`, none when it is absent (R45). -/
def State.fetch (s : State) : Option Word := Mem.lookup s.mem s.pc.toNat

/-! ### Registers -/

/-- Register `r` is hard-wired to zero (R22, R23). -/
def State.isHardZero (s : State) (r : RegId) : Bool := s.params.zeroRegHardwired && r == 0#5

/-- `x[r]` (R22). -/
def State.readReg (s : State) (r : RegId) : Word :=
  if s.isHardZero r then 0#32 else s.regs[r.toNat]'(r.isLt)

/-- `x[r] <- v`: discarded for a hard-wired register 0 (R23). -/
def State.writeReg (s : State) (r : RegId) (v : Word) : State :=
  if s.isHardZero r then s else { s with regs := s.regs.set r.toNat v r.isLt }

/-! ### The pc and the run state -/

/-- The step ends with `pc <- pc + 4`, modulo `2^32` (R26, R27). -/
def State.advance (s : State) : State := { s with pc := s.pc + 4#32 }

/-- The step ends with `pc <- t` (R26). -/
def State.redirect (s : State) (t : Word) : State := { s with pc := t }

/-- A halting step: the run state becomes Halted and nothing else changes (R28). -/
def State.halt (s : State) : State := { s with runState := .halted }

/-! ### The ways an instruction ends -/

/-- Writes `v` to the destination `r` and goes to the next instruction: the shape of all arithmetic, shifts and
loads (R110 to R130, R140 to R144). -/
def State.finishWith (s : State) (r : RegId) (v : Word) : Host.Outcome State Fault Refusal :=
  .next (s.writeReg r v).advance

/-- Goes to `t` when `taken`, else to the next instruction (R26, R151, R152). -/
def State.branchIf (s : State) (taken : Bool) (t : Word) : Host.Outcome State Fault Refusal :=
  .next (if taken then s.redirect t else s.advance)

/-- What a policy makes of a word: a no-op that advances the pc, or a halt (R160 to R162). -/
def State.underPolicy (s : State) (pol : Config.Policy) : Host.Outcome State Fault Refusal :=
  match pol with
  | .nop => .next s.advance
  | .halt => .next s.halt

end Sys2Proof.Machine
end

