-- ==== Sys2Proof/Machine/Operands.lean ====
section
/-! DEFINITION. The operand forms: immediates, the one addressing mode, the targets (spec R65 to R69, R132,
R150, R153, R154). `sext32`, `zext32`, `wordAddress` and `branchTarget` stand in Decode.lean. -/

namespace Sys2Proof.Machine

/-- The effective address `x[rs] + sext_32(imm16)`, modulo `2^32` (R132, R57). -/
def State.effectiveAddress (s : State) (rs : RegId) (imm : Imm16) : Word := s.readReg rs + sext32 imm

/-- The target of a jump that stands at `pc`: `(pc & 0xF0000000) | (addr26 << 2)` (R68, R153). -/
def jumpTarget (pc : Word) (t : Addr26) : Word := (pc &&& 0xF0000000#32) ||| wordAddress t

/-- The return address of a `jal` that stands at `pc` (R154). -/
def returnAddress (pc : Word) : Word := pc + 4#32

/-- Register 31, which `jal` links in (R154). -/
def linkReg : RegId := 31#5

/-- The target of a branch taken in state `s` (R150). -/
def State.branchTarget (s : State) (imm : Imm16) : Word := Sys2Proof.branchTarget s.pc imm

end Sys2Proof.Machine
end

