-- ==== Sys2Proof/Machine/Alu.lean ====
section
/-! DEFINITION. Register-register arithmetic, logic, compare and multiply (spec R110 to R119). -/

namespace Sys2Proof.Machine

/-- The shape of all nine: `x[rd] <- f(x[rs], x[rt])`, sources read before the write (R11). -/
def State.aluRegs (s : State) (f : Word → Word → Word) (rd rs rt : RegId) :
    Host.Outcome State Fault Refusal :=
  s.finishWith rd (f (s.readReg rs) (s.readReg rt))

/-- R110: the sum modulo `2^32`; no overflow trap. -/
def execAdd (rd rs rt : RegId) (s : State) : Host.Outcome State Fault Refusal :=
  s.aluRegs (fun a b => a + b) rd rs rt

/-- R111: `x[rs] - x[rt]` modulo `2^32`. -/
def execSub (rd rs rt : RegId) (s : State) : Host.Outcome State Fault Refusal :=
  s.aluRegs (fun a b => a - b) rd rs rt

/-- R112. -/
def execAnd (rd rs rt : RegId) (s : State) : Host.Outcome State Fault Refusal :=
  s.aluRegs (fun a b => a &&& b) rd rs rt

/-- R113. -/
def execOr (rd rs rt : RegId) (s : State) : Host.Outcome State Fault Refusal :=
  s.aluRegs (fun a b => a ||| b) rd rs rt

/-- R114. -/
def execXor (rd rs rt : RegId) (s : State) : Host.Outcome State Fault Refusal :=
  s.aluRegs (fun a b => a ^^^ b) rd rs rt

/-- R115. -/
def execNor (rd rs rt : RegId) (s : State) : Host.Outcome State Fault Refusal :=
  s.aluRegs (fun a b => ~~~(a ||| b)) rd rs rt

/-- R116. -/
def execSlt (rd rs rt : RegId) (s : State) : Host.Outcome State Fault Refusal :=
  s.aluRegs (fun a b => truthWord (signedLess a b)) rd rs rt

/-- R117. -/
def execSltu (rd rs rt : RegId) (s : State) : Host.Outcome State Fault Refusal :=
  s.aluRegs (fun a b => truthWord (unsignedLess a b)) rd rs rt

/-- R118: the low 32 bits of the product. -/
def execMul (rd rs rt : RegId) (s : State) : Host.Outcome State Fault Refusal :=
  s.aluRegs (fun a b => a * b) rd rs rt

end Sys2Proof.Machine
end

