-- ==== Sys2Proof/Machine/AluImm.lean ====
section
/-! DEFINITION. Register-immediate arithmetic, compare and logic (spec R140 to R145). -/

namespace Sys2Proof.Machine

/-- The shape of all five: `x[rt] <- f(x[rs], b)` for the immediate operand `b`. -/
def State.aluImm (s : State) (f : Word → Word → Word) (rt rs : RegId) (b : Word) :
    Host.Outcome State Fault Refusal :=
  s.finishWith rt (f (s.readReg rs) b)

/-- R140: the sign-extended immediate; the sum modulo `2^32`. -/
def execAddi (rt rs : RegId) (imm : Imm16) (s : State) : Host.Outcome State Fault Refusal :=
  s.aluImm (fun a b => a + b) rt rs (sext32 imm)

/-- R141: the sign-extended immediate. -/
def execSlti (rt rs : RegId) (imm : Imm16) (s : State) : Host.Outcome State Fault Refusal :=
  s.aluImm (fun a b => truthWord (signedLess a b)) rt rs (sext32 imm)

/-- R142: the zero-extended immediate (R66). -/
def execAndi (rt rs : RegId) (imm : Imm16) (s : State) : Host.Outcome State Fault Refusal :=
  s.aluImm (fun a b => a &&& b) rt rs (zext32 imm)

/-- R143: the zero-extended immediate. -/
def execOri (rt rs : RegId) (imm : Imm16) (s : State) : Host.Outcome State Fault Refusal :=
  s.aluImm (fun a b => a ||| b) rt rs (zext32 imm)

/-- R144: the zero-extended immediate. -/
def execXori (rt rs : RegId) (imm : Imm16) (s : State) : Host.Outcome State Fault Refusal :=
  s.aluImm (fun a b => a ^^^ b) rt rs (zext32 imm)

end Sys2Proof.Machine
end

