-- ==== Sys2Proof/Machine/Control.lean ====
section
/-! DEFINITION. Branches, jumps, call and return (spec R150 to R156). A redirect takes effect at once: there is
no delay slot (R156). -/

namespace Sys2Proof.Machine

/-- R151: taken when the two patterns are equal. -/
def execBeq (rs rt : RegId) (imm : Imm16) (s : State) : Host.Outcome State Fault Refusal :=
  s.branchIf (s.readReg rs == s.readReg rt) (s.branchTarget imm)

/-- R152: taken when they differ. -/
def execBne (rs rt : RegId) (imm : Imm16) (s : State) : Host.Outcome State Fault Refusal :=
  s.branchIf (s.readReg rs != s.readReg rt) (s.branchTarget imm)

/-- R153: the region bits are those of the jump's own address. -/
def execJ (addr : Addr26) (s : State) : Host.Outcome State Fault Refusal :=
  .next (s.redirect (jumpTarget s.pc addr))

/-- R154: links `pc + 4` in register 31 and jumps; both from the pc at the start of the step (R11). -/
def execJal (addr : Addr26) (s : State) : Host.Outcome State Fault Refusal :=
  .next ((s.writeReg linkReg (returnAddress s.pc)).redirect (jumpTarget s.pc addr))

/-- R155: all 32 bits of the register, unmasked and unchecked. -/
def execJr (rs : RegId) (s : State) : Host.Outcome State Fault Refusal :=
  .next (s.redirect (s.readReg rs))

end Sys2Proof.Machine
end

