-- ==== Sys2Proof/Machine/LoadStore.lean ====
section
/-! DEFINITION. Loads and stores (spec R130 to R132). -/

namespace Sys2Proof.Machine

/-- R130: the word at exactly the effective address, zero when that key is absent. -/
def execLw (rt rs : RegId) (imm : Imm16) (s : State) : Host.Outcome State Fault Refusal :=
  s.finishWith rt (s.memRead (s.effectiveAddress rs imm))

/-- R131: the cell at exactly the effective address becomes present with `x[rt]`. -/
def execSw (rt rs : RegId) (imm : Imm16) (s : State) : Host.Outcome State Fault Refusal :=
  .next (s.memWrite (s.effectiveAddress rs imm) (s.readReg rt)).advance

end Sys2Proof.Machine
end

