-- ==== Sys2Proof/Machine/Shift.lean ====
section
/-! DEFINITION. Shifts by a constant (spec R120 to R123). -/

namespace Sys2Proof.Machine

/-- The shape of all three: `x[rd] <- f(x[rt], shamt)`, the distance read unsigned (R123). -/
def State.shiftReg (s : State) (f : Word → Nat → Word) (rd rt : RegId) (shamt : Shamt) :
    Host.Outcome State Fault Refusal :=
  s.finishWith rd (f (s.readReg rt) shamt.toNat)

/-- R120: zeros enter at bit 0. -/
def execSll (rd rt : RegId) (shamt : Shamt) (s : State) : Host.Outcome State Fault Refusal :=
  s.shiftReg (fun a n => a <<< n) rd rt shamt

/-- R121: zeros enter at bit 31. -/
def execSrl (rd rt : RegId) (shamt : Shamt) (s : State) : Host.Outcome State Fault Refusal :=
  s.shiftReg (fun a n => a >>> n) rd rt shamt

/-- R122: copies of bit 31 enter at bit 31. -/
def execSra (rd rt : RegId) (shamt : Shamt) (s : State) : Host.Outcome State Fault Refusal :=
  s.shiftReg (fun a n => a.sshiftRight n) rd rt shamt

end Sys2Proof.Machine
end

