-- ==== Sys2Proof/Machine/Pseudo.lean ====
section
/-! DEFINITION. The pseudo-instructions (spec R96 to R99): each executes as the one machine word it is assembled
to. The decoder never returns one (R75), so no step runs them; the opcode table lists them. -/

namespace Sys2Proof.Machine

/-- R96: `add rd, rs, $zero`. -/
def execMove (rd rs : RegId) (s : State) : Host.Outcome State Fault Refusal :=
  s.aluRegs (fun a b => a + b) rd rs 0#5

/-- R97: `sll $zero, $zero, 0`. -/
def execNop (s : State) : Host.Outcome State Fault Refusal :=
  s.shiftReg (fun a n => a <<< n) 0#5 0#5 0#5

/-- R98: `addi rt, $zero, imm`. -/
def execLi (rt : RegId) (imm : Imm16) (s : State) : Host.Outcome State Fault Refusal :=
  s.aluImm (fun a b => a + b) rt 0#5 (sext32 imm)

/-- R99: `addi rt, $zero, imm`, for the `imm` the assembler's `LABEL_IMM` gave. -/
def execLa (rt : RegId) (imm : Imm16) (s : State) : Host.Outcome State Fault Refusal :=
  s.aluImm (fun a b => a + b) rt 0#5 (sext32 imm)

end Sys2Proof.Machine
end

