-- ==== Sys2Proof/Machine/System.lean ====
section
/-! DEFINITION. System instructions and unrecognized words (spec R160 to R163). -/

namespace Sys2Proof.Machine

/-- R160: under `SYSTEM_POLICY`; no register is read, nothing is serviced. -/
def execSyscall (s : State) : Host.Outcome State Fault Refusal := s.underPolicy s.params.systemPolicy

/-- R161: exactly as `syscall`, under the same parameter. -/
def execBreak (s : State) : Host.Outcome State Fault Refusal := s.underPolicy s.params.systemPolicy

/-- R162: a fetched word that is no instruction, under `UNRECOGNIZED_POLICY`. -/
def execUnrecognized (s : State) : Host.Outcome State Fault Refusal :=
  s.underPolicy s.params.unrecognizedPolicy

end Sys2Proof.Machine
end

