-- ==== Sys2Proof/Machine/Step.lean ====
section
/-! DEFINITION. One step of the machine (spec R31). -/

namespace Sys2Proof.Machine

/-- One atomic Fetch-Decode-Execute transition (R31): a halted machine changes nothing (R28); an absent key at
the pc halts it (R45); else the word there is decoded and executed. -/
def step (s : State) : Host.Outcome State Fault Refusal :=
  match s.runState with
  | .halted => .next s
  | .running =>
    match s.fetch with
    | none => .next s.halt
    | some w =>
      match (decode s.params w s.pc).toInstr with
      | some i => exec i s
      | none => execUnrecognized s

/-- `s` with the instruction whose bits are `w` in the cell at the pc and the machine Running, which is all that
fetching it takes (R45). It stands for the host's `load` of a program (R192; notes/assumptions/19.md). -/
def State.withFetchWord (s : State) (nbits w : Nat) : State :=
  { s.memWrite s.pc (BitVec.ofNat 32 (w % 2 ^ nbits)) with runState := .running }

end Sys2Proof.Machine
end

