-- ==== Sys2Proof/Machine/Trace.lean ====
section
/-! DEFINITION. The decoder's printed form and the trace, as functions of the state (spec R36, R75 to R78). The
trace is no part of the state (R33, R36). -/

namespace Sys2Proof

/-- A symbol table: names and addresses (R94). -/
abbrev SymTable := List (String × Word)

/-- The mnemonic a kind is shown under (R75); an unrecognized word has its own text. -/
def Kind.mnemonic : Kind → String
  | .add => "add" | .sub => "sub" | .and => "and" | .or => "or" | .xor => "xor" | .nor => "nor"
  | .slt => "slt" | .sltu => "sltu" | .mul => "mul"
  | .sll => "sll" | .srl => "srl" | .sra => "sra"
  | .jr => "jr" | .syscall => "syscall" | .brk => "break"
  | .addi => "addi" | .slti => "slti" | .andi => "andi" | .ori => "ori" | .xori => "xori"
  | .lw => "lw" | .sw => "sw"
  | .beq => "beq" | .bne => "bne" | .j => "j" | .jal => "jal"
  | .unrecognized => "unrecognized instruction"

/-- The names of the registers in the order of their numbers (R21). -/
def registerNames : List String :=
  ["$zero", "$at", "$v0", "$v1", "$a0", "$a1", "$a2", "$a3"] ++
  ["$t0", "$t1", "$t2", "$t3", "$t4", "$t5", "$t6", "$t7"] ++
  ["$s0", "$s1", "$s2", "$s3", "$s4", "$s5", "$s6", "$s7"] ++
  ["$t8", "$t9", "$k0", "$k1", "$gp", "$sp", "$fp", "$ra"]

/-- The name of a register (R21). -/
def registerName (r : RegId) : String := registerNames.getD r.toNat "$zero"

/-- One operand of a printed instruction (R75). The spelling is open (93 U15), so the operands stay structured. -/
inductive ShownOperand where
  /-- A register by its name. -/
  | register (name : String)
  /-- A shift amount, 0 to 31. -/
  | shamt (n : Nat)
  /-- An immediate by its signed reading. -/
  | immediate (n : Int)
  /-- `offset(base)`. -/
  | based (offset : Int) (base : String)
  /-- A target some label is bound to: one of these names is shown, and which one is open (R78, 93 U14). -/
  | label (candidates : List String)
  /-- A target no label is bound to: its address in hexadecimal. -/
  | address (a : Word)
  deriving DecidableEq, Repr

/-- The names bound to exactly `a` (R78). -/
def labelsAt (t : SymTable) (a : Word) : List String := (t.filter fun e => e.2 == a).map (·.1)

/-- A branch or jump target as shown (R78). -/
def shownTarget (text : SymTable) (a : Word) : ShownOperand :=
  if (labelsAt text a).isEmpty then .address a else .label (labelsAt text a)

/-- The operands of a decoded word in the order of the source form (R75). -/
def Decoded.shownOperands (text : SymTable) (d : Decoded) : List ShownOperand :=
  let reg (r : RegId) : ShownOperand := .register (registerName r)
  match d.kind with
  | .add | .sub | .and | .or | .xor | .nor | .slt | .sltu | .mul => [reg d.rd, reg d.rs, reg d.rt]
  | .sll | .srl | .sra => [reg d.rd, reg d.rt, .shamt d.shamt.toNat]
  | .jr => [reg d.rs]
  | .syscall | .brk | .unrecognized => []
  | .addi | .slti | .andi | .ori | .xori => [reg d.rt, reg d.rs, .immediate d.simm.toInt]
  | .lw | .sw => [reg d.rt, .based d.simm.toInt (registerName d.rs)]
  | .beq | .bne => [reg d.rs, reg d.rt, shownTarget text d.btarget]
  | .j | .jal => [shownTarget text d.jtarget]

end Sys2Proof

namespace Sys2Proof.Machine

/-- What is observed of one executed step: "the instruction address, its decoded mnemonic form, and the full
register file contents" after the instruction's writes (R36). -/
structure TraceElement where
  address : Word
  decoded : Decoded
  regs : Vector Word 32
  deriving DecidableEq, Repr

/-- The register file as read, `x[0]` to `x[31]` (R36). -/
def State.registerFile (s : State) : Vector Word 32 := Vector.ofFn fun r => s.readReg (BitVec.ofFin r)

/-- The trace element of the step from `s`: none when the machine is halted or the step halts it (R31, R36). -/
def traceElement (s : State) : Option TraceElement :=
  match s.runState, s.fetch, step s with
  | .running, some w, .next t =>
    match t.runState with
    | .running => some ⟨s.pc, decode s.params w s.pc, t.registerFile⟩
    | .halted => none
  | _, _, _ => none

end Sys2Proof.Machine
end

