-- ==== Sys2Proof/Machine/HostInterface.lean ====
section
/-! DEFINITION. The operations of the host on the core (spec R7) and the loaded image (R192, R193). -/

namespace Sys2Proof.Machine

/-- `reset` keeps the parameters, which are fixed, and puts every piece of state at its reset value (R190); it
is the only way out of Halted (R191). -/
def State.resetAgain (s : State) : State := State.resetWith s.params

/-- `load(a, w)`: makes cell `a` present with `w` (R7). -/
def State.load (s : State) (a w : Word) : State := s.memWrite a w

/-- `halted` (R7). -/
def State.isHalted (s : State) : Bool := s.runState == .halted

/-- Loads the words of a program at consecutive word addresses from `a` on (R192); past the top of the address
space they wrap, the model's choice (notes/assumptions/28.md). -/
def State.loadWordsAt (s : State) (a : Word) : List Word → State
  | [] => s
  | w :: ws => (s.load a w).loadWordsAt (a + 4#32) ws

/-- Loads data cells, each at its own key (R193). -/
def State.loadCells (s : State) : List (Word × Word) → State
  | [] => s
  | (a, w) :: cells => (s.load a w).loadCells cells

/-- The loaded image: the program from `TEXT_BASE` on, then the declared data (R192, R193). That the data come
last, so that a data word stands at a key which both regions claim (R49), is the model's choice
(notes/assumptions/27.md). -/
def State.loadImage (s : State) (text : List Word) (data : List (Word × Word)) : State :=
  (s.loadWordsAt s.params.textBase text).loadCells data

/-- Where the host stands: between reset and the first step, or after it (R7, R35). -/
inductive HostPhase where
  | loading
  | stepping
  deriving DecidableEq, Repr

/-- The core together with the host's phase. -/
structure Session where
  core : State
  phase : HostPhase
  deriving DecidableEq, Repr

/-- What a host may ask of the core (R7). -/
inductive HostOp where
  | reset
  | load (a w : Word)
  | step
  deriving DecidableEq, Repr

/-- What one operation of the host does; none where no such move exists: a `load` after the first step
(R7, R35, 93 U20). That the host may reset in every phase and run state, a core still Running after its first step
among them, is the model's choice (notes/assumptions/30.md). -/
def Session.apply (x : Session) (op : HostOp) : Option Session :=
  match op, x.phase with
  | .reset, _ => some ⟨x.core.resetAgain, .loading⟩
  | .load a w, .loading => some ⟨x.core.load a w, .loading⟩
  | .load _ _, .stepping => none
  | .step, _ =>
    match step x.core with
    | .next t => some ⟨t, .stepping⟩
    | .fault r => nomatch r
    | .refused _ => none

/-- At most `n` steps: `n` is the host's `MAX_STEPS`, outside the core (R201). -/
def runSteps : Nat → State → Host.Outcome State Fault Refusal
  | 0, s => .next s
  | n + 1, s =>
    match step s with
    | .next t => runSteps n t
    | .fault r => .fault r
    | .refused r => .refused r

/-- The trace of at most `n` steps: one element for each executed step (R36). -/
def traceSteps : Nat → State → List TraceElement
  | 0, _ => []
  | n + 1, s =>
    match step s with
    | .next t => (traceElement s).toList ++ traceSteps n t
    | .fault _ => []
    | .refused _ => []

end Sys2Proof.Machine
end

