-- ==== Sys2Proof/Machine/SourceText.lean ====
section
/-! DEFINITION. The assembler's reading of source text (spec R88 to R90, R95). It is surrounding software, no part
of the step (R4). What the spec does not list is refused (decision D27; notes/assumptions/24.md), but for the
forms that notes/assumptions/29.md and 31.md name. Text is a list of characters. -/

namespace Sys2Proof.Asm

/-- Why the assembler refuses a source (R102 and the refusals it lists). All are fatal, and no output is emitted. -/
inductive AsmError where
  /-- A label that is in neither the right table nor any (R94, R102). -/
  | undefinedLabel (name : String)
  /-- R90, R102. -/
  | malformedInteger
  /-- R93, R102. -/
  | unterminatedString
  /-- R89, R102. -/
  | unknownRegister
  /-- A literal outside the range of its field (R84, R90). -/
  | literalOutOfRange
  /-- A shift amount outside 0 to 31 (R82). -/
  | shamtOutOfRange
  /-- R85. -/
  | branchOutOfReach
  /-- R86. -/
  | jumpOutOfRegion
  /-- A bare-label `lw`/`sw` or a `la` while `LABEL_IMM` is not supplied (R99, R100). -/
  | labelImmOpen
  /-- R94. -/
  | duplicateLabel
  /-- A mnemonic outside R95. -/
  | unknownMnemonic
  /-- A character above 127 or a backslash in a string (R93, D27). -/
  | stringCharacter
  /-- A source form the spec does not list (R88, D27). -/
  | unlistedForm
  deriving DecidableEq, Repr

/-- One instruction line, its labels not yet resolved (R95). -/
inductive SourceInstr where
  /-- An instruction all of whose operands are numbers; `move`, `nop` and `li` among them. -/
  | plain (i : Instr)
  | beq (rs rt : RegId) (label : String)
  | bne (rs rt : RegId) (label : String)
  | j (label : String)
  | jal (label : String)
  /-- `lw rt, label` (R100). -/
  | lwLabel (rt : RegId) (label : String)
  /-- `sw rt, label` (R100). -/
  | swLabel (rt : RegId) (label : String)
  /-- `la rt, label` (R99). -/
  | la (rt : RegId) (label : String)
  deriving DecidableEq, Repr

/-- One item of the text section (R91). -/
inductive TextItem where
  | label (name : String)
  | instr (i : SourceInstr)
  deriving DecidableEq, Repr

/-- One item of the data section (R92, R93). -/
inductive DataItem where
  | label (name : String)
  | word (values : List Word)
  | asciiz (codePoints : List Word)
  deriving DecidableEq, Repr

/-- The items of a source, section by section, each in source order. -/
structure Source where
  text : List TextItem
  data : List DataItem
  deriving DecidableEq, Repr

/-! ### Characters -/

def quoteChar : Char := Char.ofNat 34
def backslashChar : Char := Char.ofNat 92

/-- A space or a tab; that these are the blanks is the model's choice (notes/assumptions/24.md). -/
def isBlank (c : Char) : Bool := c == ' ' || c == Char.ofNat 9

/-- Without the blanks at either end. -/
def trim (cs : List Char) : List Char := ((cs.dropWhile isBlank).reverse.dropWhile isBlank).reverse

/-- The parts between the separators, one more than there are separators. -/
def splitAt (sep : Char) : List Char → List (List Char)
  | [] => [[]]
  | c :: cs =>
    match splitAt sep cs with
    | [] => [[c]]
    | part :: parts => if c = sep then [] :: part :: parts else (c :: part) :: parts

/-- The parts of an operand list, which is empty when there is no text (R88, "operands comma-separated"). -/
def operandsOf (cs : List Char) : List (List Char) :=
  if cs.isEmpty then [] else (splitAt ',' cs).map trim

/-- A label name: letters, digits and underscores, no digit first (the spec does not say; refusing the rest). -/
def labelName (cs : List Char) : Except AsmError String :=
  match cs with
  | [] => .error .unlistedForm
  | c :: _ =>
    if !c.isDigit && cs.all (fun x => x.isAlphanum || x == '_') then .ok (String.ofList cs)
    else .error .unlistedForm

/-! ### Literals and registers -/

/-- The value of decimal digits after `n`. -/
def digitsValue : List Char → Nat → Option Nat
  | [], n => some n
  | c :: cs, n => if c.isDigit then digitsValue cs (10 * n + (c.toNat - 48)) else none

/-- At least one decimal digit. -/
def natLiteral : List Char → Option Nat
  | [] => none
  | c :: cs => digitsValue (c :: cs) 0

/-- "a valid (optionally negative) integer" (R90). -/
def intLiteral (cs : List Char) : Except AsmError Int :=
  match cs with
  | '-' :: ds =>
    match natLiteral ds with
    | some n => .ok (-(n : Int))
    | none => .error .malformedInteger
  | ds =>
    match natLiteral ds with
    | some n => .ok (n : Int)
    | none => .error .malformedInteger

/-- An I-type or `li` literal (R84, R98). -/
def immLiteral (cs : List Char) : Except AsmError Imm16 := do
  let n ← intLiteral cs
  if immLiteralOk n then .ok (BitVec.ofInt 16 n) else .error .literalOutOfRange

/-- A shift amount (R82). -/
def shamtLiteral (cs : List Char) : Except AsmError Shamt := do
  let n ← intLiteral cs
  if shamtLiteralOk n then .ok (BitVec.ofInt 5 n) else .error .shamtOutOfRange

/-- A `.word` value as its 32-bit pattern (R90, R92). -/
def wordLiteral (cs : List Char) : Except AsmError Word := do
  let n ← intLiteral cs
  if wordLiteralOk n then .ok (BitVec.ofInt 32 n) else .error .literalOutOfRange

/-- The place of a name in a list, counted from `n`. -/
def indexFrom (n : Nat) (name : String) : List String → Option Nat
  | [] => none
  | x :: xs => if x = name then some n else indexFrom (n + 1) name xs

/-- A register operand: `$` and a name of R21 (R89). -/
def register (cs : List Char) : Except AsmError RegId :=
  match indexFrom 0 (String.ofList cs) registerNames with
  | some n => .ok (BitVec.ofNat 5 n)
  | none => .error .unknownRegister

/-- `offset(rs)` (R84). Blanks around and inside the parentheses are accepted, the model's choice
(notes/assumptions/29.md). -/
def based (cs : List Char) : Except AsmError (Imm16 × RegId) :=
  match splitAt '(' cs with
  | [off, rest] =>
    match rest.reverse with
    | ')' :: base => do
      let imm ← immLiteral (trim off)
      let rs ← register (trim base.reverse)
      .ok (imm, rs)
    | _ => .error .unlistedForm
  | _ => .error .unlistedForm

/-! ### Instruction lines -/

/-- The kinds of the machine instructions, to be found by mnemonic. -/
def machineKinds : List Kind :=
  [.add, .sub, .and, .or, .xor, .nor, .slt, .sltu, .mul, .sll, .srl, .sra, .jr, .syscall, .brk] ++
  [.addi, .slti, .andi, .ori, .xori, .lw, .sw, .beq, .bne, .j, .jal]

/-- `rd, rs, rt`. -/
def threeRegs (mk : RegId → RegId → RegId → Instr) (ops : List (List Char)) : Except AsmError SourceInstr :=
  match ops with
  | [a, b, c] => do
    let rd ← register a
    let rs ← register b
    let rt ← register c
    .ok (.plain (mk rd rs rt))
  | _ => .error .unlistedForm

/-- `rd, rt, shamt`. -/
def regsShamt (mk : RegId → RegId → Shamt → Instr) (ops : List (List Char)) : Except AsmError SourceInstr :=
  match ops with
  | [a, b, c] => do
    let rd ← register a
    let rt ← register b
    let sh ← shamtLiteral c
    .ok (.plain (mk rd rt sh))
  | _ => .error .unlistedForm

/-- `rt, rs, imm`. -/
def regsImm (mk : RegId → RegId → Imm16 → Instr) (ops : List (List Char)) : Except AsmError SourceInstr :=
  match ops with
  | [a, b, c] => do
    let rt ← register a
    let rs ← register b
    let imm ← immLiteral c
    .ok (.plain (mk rt rs imm))
  | _ => .error .unlistedForm

/-- `rt, offset(rs)` or `rt, label`. -/
def memory (mk : RegId → RegId → Imm16 → Instr) (bare : RegId → String → SourceInstr)
    (ops : List (List Char)) : Except AsmError SourceInstr :=
  match ops with
  | [a, b] => do
    let rt ← register a
    if b.contains '(' then
      let (imm, rs) ← based b
      .ok (.plain (mk rt rs imm))
    else
      let l ← labelName b
      .ok (bare rt l)
  | _ => .error .unlistedForm

/-- `rs, rt, label`. -/
def branch (mk : RegId → RegId → String → SourceInstr) (ops : List (List Char)) :
    Except AsmError SourceInstr :=
  match ops with
  | [a, b, c] => do
    let rs ← register a
    let rt ← register b
    let l ← labelName c
    .ok (mk rs rt l)
  | _ => .error .unlistedForm

/-- `label`. -/
def jump (mk : String → SourceInstr) (ops : List (List Char)) : Except AsmError SourceInstr :=
  match ops with
  | [a] => do
    let l ← labelName a
    .ok (mk l)
  | _ => .error .unlistedForm

/-- No operands. -/
def bare (i : Instr) (ops : List (List Char)) : Except AsmError SourceInstr :=
  if ops.isEmpty then .ok (.plain i) else .error .unlistedForm

/-- `rs` alone. -/
def oneReg (mk : RegId → Instr) (ops : List (List Char)) : Except AsmError SourceInstr :=
  match ops with
  | [a] => do
    let rs ← register a
    .ok (.plain (mk rs))
  | _ => .error .unlistedForm

/-- The operands of a machine instruction (R95). -/
def machineLine (k : Kind) (ops : List (List Char)) : Except AsmError SourceInstr :=
  match k with
  | .add => threeRegs .add ops
  | .sub => threeRegs .sub ops
  | .and => threeRegs .and ops
  | .or => threeRegs .or ops
  | .xor => threeRegs .xor ops
  | .nor => threeRegs .nor ops
  | .slt => threeRegs .slt ops
  | .sltu => threeRegs .sltu ops
  | .mul => threeRegs .mul ops
  | .sll => regsShamt .sll ops
  | .srl => regsShamt .srl ops
  | .sra => regsShamt .sra ops
  | .jr => oneReg .jr ops
  | .syscall => bare .syscall ops
  | .brk => bare .brk ops
  | .addi => regsImm .addi ops
  | .slti => regsImm .slti ops
  | .andi => regsImm .andi ops
  | .ori => regsImm .ori ops
  | .xori => regsImm .xori ops
  | .lw => memory .lw .lwLabel ops
  | .sw => memory .sw .swLabel ops
  | .beq => branch .beq ops
  | .bne => branch .bne ops
  | .j => jump .j ops
  | .jal => jump .jal ops
  | .unrecognized => .error .unknownMnemonic

/-- `move rd, rs` (R96). -/
def moveLine (ops : List (List Char)) : Except AsmError SourceInstr :=
  match ops with
  | [a, b] => do
    let rd ← register a
    let rs ← register b
    .ok (.plain (.move rd rs))
  | _ => .error .unlistedForm

/-- `li rt, imm` (R98). -/
def liLine (ops : List (List Char)) : Except AsmError SourceInstr :=
  match ops with
  | [a, b] => do
    let rt ← register a
    let imm ← immLiteral b
    .ok (.plain (.li rt imm))
  | _ => .error .unlistedForm

/-- `la rt, label` (R99). -/
def laLine (ops : List (List Char)) : Except AsmError SourceInstr :=
  match ops with
  | [a, b] => do
    let rt ← register a
    let l ← labelName b
    .ok (.la rt l)
  | _ => .error .unlistedForm

/-- `mnemonic operands` (R88, R95), any number of blanks between them and around a comma, the model's choice
(notes/assumptions/29.md). -/
def instrLine (cs : List Char) : Except AsmError SourceInstr :=
  let name := String.ofList (cs.takeWhile (fun c => !isBlank c))
  let ops := operandsOf (trim (cs.dropWhile (fun c => !isBlank c)))
  if name = "move" then moveLine ops
  else if name = "nop" then bare .nop ops
  else if name = "li" then liLine ops
  else if name = "la" then laLine ops
  else
    match machineKinds.find? (fun k => k.mnemonic == name) with
    | some k => machineLine k ops
    | none => .error .unknownMnemonic

/-! ### Data lines -/

/-- The code points of a string literal that ends the line (R93): no escape, no character above 127. -/
def stringLiteral (cs : List Char) : Except AsmError (List Word) :=
  match cs with
  | [] => .error .unlistedForm
  | c :: body =>
    if c ≠ quoteChar then .error .unlistedForm
    else
      match body.reverse with
      | [] => .error .unterminatedString
      | q :: inside =>
        if q ≠ quoteChar then
          if body.contains quoteChar then .error .unlistedForm else .error .unterminatedString
        else if inside.contains quoteChar then .error .unlistedForm
        else if inside.any (fun x => x == backslashChar || 127 < x.toNat) then .error .stringCharacter
        else .ok (inside.reverse.map fun x => BitVec.ofNat 32 x.toNat)

/-- All the values of a `.word` declaration, at least one. -/
def wordLiterals : List (List Char) → Except AsmError (List Word)
  | [] => .error .malformedInteger
  | [x] => do
    let w ← wordLiteral x
    .ok [w]
  | x :: y :: xs => do
    let w ← wordLiteral x
    let ws ← wordLiterals (y :: xs)
    .ok (w :: ws)

/-- `.word v1, v2, …` or `.asciiz "…"` (R88). -/
def declaration (cs : List Char) : Except AsmError DataItem :=
  let directive := String.ofList (cs.takeWhile (fun c => !isBlank c))
  let rest := trim (cs.dropWhile (fun c => !isBlank c))
  if directive = ".word" then do
    let ws ← wordLiterals (operandsOf rest)
    .ok (.word ws)
  else if directive = ".asciiz" then do
    let cps ← stringLiteral rest
    .ok (.asciiz cps)
  else .error .unlistedForm

/-- A line of the data section: a label line, a declaration, or a declaration behind its label (R88). Blanks before
and after the colon are accepted (notes/assumptions/29.md), and so is an `.asciiz` without a label (31.md): the
model's choice. -/
def dataLine (cs : List Char) : Except AsmError (List DataItem) :=
  match cs with
  | '.' :: _ => do
    let d ← declaration cs
    .ok [d]
  | _ => do
    let l ← labelName (trim (cs.takeWhile (· ≠ ':')))
    match cs.dropWhile (· ≠ ':') with
    | [] => .error .unlistedForm
    | _ :: rest =>
      if (trim rest).isEmpty then .ok [.label l]
      else do
        let d ← declaration (trim rest)
        .ok [.label l, d]

/-- A line of the text section: a label line or an instruction line, never both on one line (R88). Blanks before
the colon are accepted, the model's choice (notes/assumptions/29.md). -/
def textLine (cs : List Char) : Except AsmError TextItem :=
  match cs.reverse with
  | ':' :: l => do
    let n ← labelName (trim l.reverse)
    .ok (.label n)
  | _ =>
    if cs.contains ':' then .error .unlistedForm
    else do
      let i ← instrLine cs
      .ok (.instr i)

/-! ### Whole sources -/

/-- The section a line stands in; none before the first marker. -/
inductive Section where
  | none
  | data
  | text
  deriving DecidableEq, Repr

/-- Reads the lines in order, each after its comment is removed (R88). A blank at either end of a line counts for
nothing, and a section marker may come again and continues its section, the model's choice
(notes/assumptions/29.md). -/
def readLines : Section → List (List Char) → Except AsmError Source
  | _, [] => .ok ⟨[], []⟩
  | sec, line :: lines =>
    let cs := trim (line.takeWhile (· ≠ '#'))
    if cs.isEmpty then readLines sec lines
    else if String.ofList cs = ".data" then readLines .data lines
    else if String.ofList cs = ".text" then readLines .text lines
    else
      match sec with
      | .none => .error .unlistedForm
      | .data => do
        let ds ← dataLine cs
        let src ← readLines .data lines
        .ok { src with data := ds ++ src.data }
      | .text => do
        let t ← textLine cs
        let src ← readLines .text lines
        .ok { src with text := t :: src.text }

/-- Reads a source text. -/
def readSource (text : List Char) : Except AsmError Source :=
  readLines .none (splitAt (Char.ofNat 10) text)

end Sys2Proof.Asm
end

