-- ==== Sys2Proof/Machine/Assembler.lean ====
section
/-! DEFINITION. The assembler: layout, symbols, label resolution, encoding, output (spec R85, R86, R91 to R94,
R96 to R104). -/

namespace Sys2Proof.Asm

/-- `LABEL_IMM(labelAddress, frontier)` (R100): open, so it is an argument, and none by default. -/
abbrev LabelImm := Option (Word → Word → Imm16)

/-! ### Layout -/

/-- The address of the instruction line with `k` instruction lines before it (R91); past the top of the address
space it wraps, the model's choice (notes/assumptions/28.md). -/
def textAddress (base : Word) (k : Nat) : Word := base + BitVec.ofNat 32 (4 * k)

/-- The text symbols, `k` instruction lines having been seen: a label takes the next instruction's address and
none of its own (R91). -/
def textSymbols (base : Word) : Nat → List TextItem → SymTable
  | _, [] => []
  | k, .label n :: items => (n, textAddress base k) :: textSymbols base k items
  | k, .instr _ :: items => textSymbols base (k + 1) items

/-- The instruction lines, in order. -/
def instrLines : List TextItem → List SourceInstr
  | [] => []
  | .label _ :: items => instrLines items
  | .instr i :: items => i :: instrLines items

/-- Cells for values, one every `stride` keys from `a` on, wrapping past the top of the address space, the model's
choice (notes/assumptions/28.md). -/
def cellsFrom (stride a : Word) : List Word → List (Word × Word)
  | [] => []
  | v :: vs => (a, v) :: cellsFrom stride (a + stride) vs

/-- How many keys an item takes: 4 for a `.word` value, one for a character and one for the terminator
(R92, R93). -/
def DataItem.size : DataItem → Word
  | .label _ => 0#32
  | .word vs => BitVec.ofNat 32 (4 * vs.length)
  | .asciiz cps => BitVec.ofNat 32 (cps.length + 1)

/-- The cells of an item at frontier `a`, each a whole word (R44, R92, R93). -/
def DataItem.cells (a : Word) : DataItem → List (Word × Word)
  | .label _ => []
  | .word vs => cellsFrom 4#32 a vs
  | .asciiz cps => cellsFrom 1#32 a (cps ++ [0#32])

/-- The data cells, laid out contiguously from frontier `a` on, with no padding (R92, R93). -/
def dataCells (a : Word) : List DataItem → List (Word × Word)
  | [] => []
  | d :: ds => d.cells a ++ dataCells (a + d.size) ds

/-- The data symbols: the label of a declaration is bound to the frontier (R92, R93). That a label alone on its line
is bound to the frontier where it stands is the model's choice (notes/assumptions/31.md). -/
def dataSymbols (a : Word) : List DataItem → SymTable
  | [] => []
  | .label n :: ds => (n, a) :: dataSymbols a ds
  | .word vs :: ds => dataSymbols (a + (DataItem.word vs).size) ds
  | .asciiz cps :: ds => dataSymbols (a + (DataItem.asciiz cps).size) ds

/-- The data frontier after the last declaration (R92, R93, R100). -/
def dataFrontier (a : Word) : List DataItem → Word
  | [] => a
  | d :: ds => dataFrontier (a + d.size) ds

/-! ### Symbols -/

/-- The address bound to a name. -/
def symbol (t : SymTable) (name : String) : Except AsmError Word :=
  match t.find? (fun e => e.1 == name) with
  | some e => .ok e.2
  | none => .error (.undefinedLabel name)

/-- "keys unique" (R94). -/
def uniqueNames : SymTable → Bool
  | [] => true
  | e :: t => !(t.map (·.1)).contains e.1 && uniqueNames t

/-- What label resolution reads: both tables and the data frontier (R94, R100). -/
structure Symbols where
  text : SymTable
  data : SymTable
  frontier : Word
  deriving DecidableEq, Repr

/-! ### Resolution and encoding -/

/-- The immediate of a branch at `a` to `t`: `(t - (a + 4)) / 4` (R67, R85). -/
def branchImm (a t : Word) : Except AsmError Imm16 :=
  if branchReaches a t then .ok (BitVec.ofInt 16 (((t.toNat : Int) - ((a.toNat : Int) + 4)) / 4))
  else .error .branchOutOfReach

/-- The address field of a jump at `a` to `t`: `(t >> 2)[25:0]` (R68, R86). -/
def jumpField (a t : Word) : Except AsmError Addr26 :=
  if jumpReaches a t then .ok (t.extractLsb' 2 26) else .error .jumpOutOfRegion

/-- The immediate of the bare-label forms, refused when `LABEL_IMM` is open (R99, R100). -/
def bareImm (f : LabelImm) (y : Symbols) (name : String) : Except AsmError Imm16 := do
  let t ← symbol y.data name
  match f with
  | some g => .ok (g t y.frontier)
  | none => .error .labelImmOpen

/-- The instruction of a source line that stands at `a`: branches and jumps look their label up in the text
table, the bare-label forms in the data table (R94). -/
def resolve (f : LabelImm) (y : Symbols) (a : Word) : SourceInstr → Except AsmError Instr
  | .plain i => .ok i
  | .beq rs rt l => do
    let t ← symbol y.text l
    let imm ← branchImm a t
    .ok (.beq rs rt imm)
  | .bne rs rt l => do
    let t ← symbol y.text l
    let imm ← branchImm a t
    .ok (.bne rs rt imm)
  | .j l => do
    let t ← symbol y.text l
    let field ← jumpField a t
    .ok (.j field)
  | .jal l => do
    let t ← symbol y.text l
    let field ← jumpField a t
    .ok (.jal field)
  | .lwLabel rt l => do
    let imm ← bareImm f y l
    .ok (.lw rt 0#5 imm)
  | .swLabel rt l => do
    let imm ← bareImm f y l
    .ok (.sw rt 0#5 imm)
  | .la rt l => do
    let imm ← bareImm f y l
    .ok (.la rt imm)

/-- The words of the instruction lines, the first of which stands at `a` (R80, R91, R103). -/
def encodeLines (p : Config.Params) (f : LabelImm) (y : Symbols) (a : Word) :
    List SourceInstr → Except AsmError (List Word)
  | [] => .ok []
  | x :: xs => do
    let i ← resolve f y a x
    let ws ← encodeLines p f y (a + 4#32) xs
    .ok (encode p i :: ws)

/-- What assembly yields: the encoded program, the data cells, and the symbols, which only the trace's label
lookup reads (R33, R101, R103). -/
structure Program where
  words : List Word
  cells : List (Word × Word)
  symbols : Symbols
  deriving DecidableEq, Repr

/-- Assembles a source that has been read: both scans, then the encoding (R94, R103). A failure gives no output
at all (R102). -/
def assembleSource (p : Config.Params) (f : LabelImm) (src : Source) : Except AsmError Program := do
  let y : Symbols :=
    ⟨textSymbols p.textBase 0 src.text, dataSymbols p.dataBase src.data, dataFrontier p.dataBase src.data⟩
  if uniqueNames y.text && uniqueNames y.data then
    let words ← encodeLines p f y p.textBase (instrLines src.text)
    .ok ⟨words, dataCells p.dataBase src.data, y⟩
  else .error .duplicateLabel

/-- Assembles a source text. -/
def assemble (p : Config.Params) (f : LabelImm) (text : List Char) : Except AsmError Program := do
  let src ← readSource text
  assembleSource p f src

/-- A word as 32 characters, the most significant bit first (R101). -/
def bitString (w : Word) : List Char :=
  (List.range 32).map fun n => if w.getMsbD n then '1' else '0'

/-- The encoded program: one line of 32 characters per instruction, in order, and nothing else (R101). -/
def Program.output (x : Program) : List (List Char) := x.words.map bitString

/-- The core after reset with the program's image loaded (R192, R193). -/
def Program.loaded (x : Program) (p : Config.Params) : Machine.State :=
  (Machine.State.resetWith p).loadImage x.words x.cells

end Sys2Proof.Asm
end

