-- ==== Sys2Proof/Safety.lean ====
section
/-! DEFINITION. The terms claims use: how a run stands (spec R184), the invariant of the state, and what an
instruction writes and leaves. -/

namespace Sys2Proof.Machine

/-! ### How a run stands -/

/-- R184: a halt at an absent key is the normal end of a run; a halt at a present key can only be a policy's, and
it is of the class of faults, not a final state. -/
inductive RunClass where
  | running
  /-- The normal end, at the pc where no word was found. -/
  | finished (pc : Word)
  /-- Stopped by `SYSTEM_POLICY` or `UNRECOGNIZED_POLICY` at this word: a fault of the run. -/
  | stoppedByPolicy (w : Word)
  deriving DecidableEq, Repr

/-- The class of a state: a halting step leaves the pc and the memory as they were (R28), so the cell at the pc
tells which halt it was. -/
def State.runClass (s : State) : RunClass :=
  match s.runState, s.fetch with
  | .running, _ => .running
  | .halted, none => .finished s.pc
  | .halted, some w => .stoppedByPolicy w

/-! ### The invariant -/

/-- The memory has its canonical form, and a hard-wired register 0 holds zero in its cell. -/
def State.Inv (s : State) : Prop :=
  s.mem.wf = true ∧ (s.params.zeroRegHardwired = true → s.regs[0] = 0#32)

/-- The pc is a multiple of 4 (R27). -/
def State.pcAligned (s : State) : Prop := s.pc.toNat % 4 = 0

/-! ### What an instruction writes and leaves -/

/-- All general registers read as before. -/
def RegsKept (s t : State) : Prop := ∀ q : RegId, t.readReg q = s.readReg q

/-- Register `r` reads `v` afterwards, unless it is hard-wired and the write was discarded (R23); every other
register reads as before. -/
def OnlyRegWritten (s t : State) (r : RegId) (v : Word) : Prop :=
  (s.isHardZero r = false → t.readReg r = v) ∧ (s.isHardZero r = true → t.readReg r = 0#32) ∧
  ∀ q : RegId, q ≠ r → t.readReg q = s.readReg q

/-- Every key of memory holds what it held, presence included. -/
def MemKept (s t : State) : Prop := ∀ a : Nat, Mem.lookup t.mem a = Mem.lookup s.mem a

/-- Key `a` is present with word `v`, and every other key is as before, presence included (R43, R44). -/
def OnlyKeyWritten (s t : State) (a v : Word) : Prop :=
  Mem.lookup t.mem a.toNat = some v ∧ ∀ b : Nat, b ≠ a.toNat → Mem.lookup t.mem b = Mem.lookup s.mem b

/-- The run state and the parameters are as before. -/
def ControlKept (s t : State) : Prop := t.runState = s.runState ∧ t.params = s.params

/-- `i` completes in `s`, writes `v` to register `r` and nothing else, and goes to the next instruction. -/
def WritesReg (i : Instr) (s : State) (r : RegId) (v : Word) : Prop :=
  ∃ t, exec i s = .next t ∧ OnlyRegWritten s t r v ∧ MemKept s t ∧ ControlKept s t ∧ t.pc = s.pc + 4#32

/-- `i` completes in `s`, writes neither register nor memory, and the next pc is `target`. -/
def GoesTo (i : Instr) (s : State) (target : Word) : Prop :=
  ∃ t, exec i s = .next t ∧ RegsKept s t ∧ MemKept s t ∧ ControlKept s t ∧ t.pc = target

/-- The word of `i` is `w` under every parameter, wherever it stands: the encoder writes it and the decoder reads
it back. -/
def EncodedAs (i : Instr) (w : Word) : Prop :=
  ∀ (p : Config.Params) (a : Word), encode p i = w ∧ (decode p w a).toInstr = some i

/-! ### What each instruction reads and writes (R24), where it goes (R26) -/

/-- The destination register (R24). -/
def destOf : Instr → Option RegId
  | .add rd _ _ | .sub rd _ _ | .and rd _ _ | .or rd _ _ | .xor rd _ _ | .nor rd _ _ => some rd
  | .slt rd _ _ | .sltu rd _ _ | .mul rd _ _ | .sll rd _ _ | .srl rd _ _ | .sra rd _ _ => some rd
  | .addi rt _ _ | .slti rt _ _ | .andi rt _ _ | .ori rt _ _ | .xori rt _ _ | .lw rt _ _ => some rt
  | .jal _ => some 31#5
  | .sw _ _ _ | .beq _ _ _ | .bne _ _ _ | .j _ | .jr _ | .syscall | .brk => none
  | .move rd _ => some rd
  | .nop => some 0#5
  | .li rt _ | .la rt _ => some rt

/-- The source registers (R24); a pseudo-instruction's are those of its expansion. -/
def sourcesOf : Instr → List RegId
  | .add _ rs rt | .sub _ rs rt | .and _ rs rt | .or _ rs rt | .xor _ rs rt | .nor _ rs rt => [rs, rt]
  | .slt _ rs rt | .sltu _ rs rt | .mul _ rs rt => [rs, rt]
  | .sll _ rt _ | .srl _ rt _ | .sra _ rt _ => [rt]
  | .addi _ rs _ | .slti _ rs _ | .andi _ rs _ | .ori _ rs _ | .xori _ rs _ | .lw _ rs _ | .jr rs => [rs]
  | .sw rt rs _ => [rs, rt]
  | .beq rs rt _ | .bne rs rt _ => [rs, rt]
  | .j _ | .jal _ | .syscall | .brk => []
  | .move _ rs => [rs, 0#5]
  | .nop | .li _ _ | .la _ _ => [0#5]

/-- The pc after a step that executes `i` and does not halt (R26): a redirect target, else `pc + 4`, each reduced
modulo `2^32`. -/
def nextPc (i : Instr) (s : State) : Word :=
  let next := s.pc.toNat + 4
  match i with
  | .beq rs rt imm =>
    BitVec.ofInt 32 (if s.readReg rs = s.readReg rt then (next : Int) + 4 * imm.toInt else next)
  | .bne rs rt imm =>
    BitVec.ofInt 32 (if s.readReg rs = s.readReg rt then (next : Int) else next + 4 * imm.toInt)
  | .j addr | .jal addr => s.pc.extractLsb' 28 4 ++ addr ++ 0#2
  | .jr rs => s.readReg rs
  | .add _ _ _ | .sub _ _ _ | .and _ _ _ | .or _ _ _ | .xor _ _ _ | .nor _ _ _ => BitVec.ofNat 32 next
  | .slt _ _ _ | .sltu _ _ _ | .mul _ _ _ | .sll _ _ _ | .srl _ _ _ | .sra _ _ _ => BitVec.ofNat 32 next
  | .addi _ _ _ | .slti _ _ _ | .andi _ _ _ | .ori _ _ _ | .xori _ _ _ => BitVec.ofNat 32 next
  | .lw _ _ _ | .sw _ _ _ | .syscall | .brk => BitVec.ofNat 32 next
  | .move _ _ | .nop | .li _ _ | .la _ _ => BitVec.ofNat 32 next

/-- The fields that the encoder writes as zero for `i` are zero in `w` (R70, R72). -/
def zeroedFieldsClear (i : Instr) (w : Word) : Prop :=
  match i with
  | .add _ _ _ | .sub _ _ _ | .and _ _ _ | .or _ _ _ | .xor _ _ _ | .nor _ _ _ => shamtOf w = 0#5
  | .slt _ _ _ | .sltu _ _ _ | .mul _ _ _ => shamtOf w = 0#5
  | .sll _ _ _ | .srl _ _ _ | .sra _ _ _ => rsOf w = 0#5
  | .jr _ => rtOf w = 0#5 ∧ rdOf w = 0#5 ∧ shamtOf w = 0#5
  | .syscall | .brk => rsOf w = 0#5 ∧ rtOf w = 0#5 ∧ rdOf w = 0#5 ∧ shamtOf w = 0#5
  | .addi _ _ _ | .slti _ _ _ | .andi _ _ _ | .ori _ _ _ | .xori _ _ _ => True
  | .lw _ _ _ | .sw _ _ _ | .beq _ _ _ | .bne _ _ _ | .j _ | .jal _ => True
  | .move _ _ | .nop | .li _ _ | .la _ _ => True

end Sys2Proof.Machine
end

