-- ==== Sys2Proof/Certificates/Slice0/Obligations.lean ====
section
/-! DEFINITION. The statements for the provers. A docstring names the rule a statement formalises, or the decision
(`D…`) or passage from general knowledge (`G…`) of the spec that it rests on, with the log entry. -/

open Sys2Proof Sys2Proof.Machine

/-! ### Encoding -/

/-- R64. Also the converse: where the three layouts put each field. -/
def Obligations.FieldsAreBitRanges : Prop :=
  (∀ (p : Config.Params) (w a : Word),
    (decode p w a).opcode.toNat = w.toNat / 2 ^ 26 ∧ (decode p w a).rs.toNat = w.toNat / 2 ^ 21 % 2 ^ 5 ∧
    (decode p w a).rt.toNat = w.toNat / 2 ^ 16 % 2 ^ 5 ∧ (decode p w a).rd.toNat = w.toNat / 2 ^ 11 % 2 ^ 5 ∧
    (decode p w a).shamt.toNat = w.toNat / 2 ^ 6 % 2 ^ 5 ∧ (decode p w a).funct.toNat = w.toNat % 2 ^ 6 ∧
    (decode p w a).imm16.toNat = w.toNat % 2 ^ 16 ∧ (decode p w a).addr26.toNat = w.toNat % 2 ^ 26) ∧
  (∀ (rs rt rd : RegId) (sh : Shamt) (f : OpCode),
    (rFormat rs rt rd sh f).toNat =
      rs.toNat * 2 ^ 21 + rt.toNat * 2 ^ 16 + rd.toNat * 2 ^ 11 + sh.toNat * 2 ^ 6 + f.toNat) ∧
  (∀ (op : OpCode) (rs rt : RegId) (imm : Imm16),
    (iFormat op rs rt imm).toNat = op.toNat * 2 ^ 26 + rs.toNat * 2 ^ 21 + rt.toNat * 2 ^ 16 + imm.toNat) ∧
  (∀ (op : OpCode) (t : Addr26), (jFormat op t).toNat = op.toNat * 2 ^ 26 + t.toNat)

/-- Words written out from the encodings of the spec's test vectors decode to the instructions they stand for. -/
def Obligations.SpecWordsDecode : Prop :=
  decodeWord defaultParams 0x01095020#32 = some (.add 10#5 8#5 9#5) ∧
  decodeWord defaultParams 0x00084900#32 = some (.sll 9#5 8#5 4#5) ∧
  decodeWord defaultParams 0x20080005#32 = some (.addi 8#5 0#5 5#16) ∧
  decodeWord defaultParams 0x8FA8FFFC#32 = some (.lw 8#5 29#5 0xFFFC#16) ∧
  decodeWord defaultParams 0x1109FFFE#32 = some (.beq 8#5 9#5 0xFFFE#16) ∧
  decodeWord defaultParams 0x0C100003#32 = some (.jal 0x0100003#26) ∧
  decodeWord defaultParams 0x0000000C#32 = some .syscall ∧
  decodeWord defaultParams 0x3C081001#32 = none

/-- The round trip of R87 for every instruction, wherever it stands, under all admissible parameters: a
pseudo-instruction comes back as its expansion (D17), a machine instruction as itself. -/
def Obligations.DecodeInvertsEncode : Prop :=
  ∀ (p : Config.Params) (i : Instr) (a : Word), p.wf = true →
    (decode p (encode p i) a).toInstr = some i.expand ∧ (i.wf = true → i.expand = i)

/-- The other direction of R87, for words whose encoder-zeroed fields are zero (a derivation of the spec). -/
def Obligations.EncodeInvertsDecode : Prop :=
  ∀ (p : Config.Params) (w a : Word) (i : Instr),
    (decode p w a).toInstr = some i → (encode p i = w ↔ zeroedFieldsClear i w)

/-- The decoder looks at opcode and funct alone for class R: the fields the encoder zeroes may hold anything
(R72, a derivation of the spec). -/
def Obligations.RTypeDecodeIgnoresZeroedFields : Prop :=
  ∀ (p : Config.Params) (rs rt rd : RegId) (sh : Shamt),
    decodeWord p (rFormat rs rt rd sh 0b100000#6) = some (.add rd rs rt) ∧
    decodeWord p (rFormat rs rt rd sh 0b100010#6) = some (.sub rd rs rt) ∧
    decodeWord p (rFormat rs rt rd sh 0b100100#6) = some (.and rd rs rt) ∧
    decodeWord p (rFormat rs rt rd sh 0b100101#6) = some (.or rd rs rt) ∧
    decodeWord p (rFormat rs rt rd sh 0b100110#6) = some (.xor rd rs rt) ∧
    decodeWord p (rFormat rs rt rd sh 0b100111#6) = some (.nor rd rs rt) ∧
    decodeWord p (rFormat rs rt rd sh 0b101010#6) = some (.slt rd rs rt) ∧
    decodeWord p (rFormat rs rt rd sh 0b101011#6) = some (.sltu rd rs rt) ∧
    (p.wf = true → decodeWord p (rFormat rs rt rd sh p.functMul) = some (.mul rd rs rt)) ∧
    decodeWord p (rFormat rs rt rd sh 0b000000#6) = some (.sll rd rt sh) ∧
    decodeWord p (rFormat rs rt rd sh 0b000010#6) = some (.srl rd rt sh) ∧
    decodeWord p (rFormat rs rt rd sh 0b000011#6) = some (.sra rd rt sh) ∧
    decodeWord p (rFormat rs rt rd sh 0b001000#6) = some (.jr rs) ∧
    decodeWord p (rFormat rs rt rd sh 0b001100#6) = some .syscall ∧
    decodeWord p (rFormat rs rt rd sh 0b001101#6) = some .brk

/-- R74, under the default `FUNCT_MUL`: the 49 functs under opcode 000000 and the 52 opcodes, and no other word.
The numbers of the rows are of general knowledge (G2, G3) and D11: log 5 and 6. -/
def Obligations.UnrecognizedWordsExactly : Prop :=
  ∀ w a : Word, (decode defaultParams w a).kind = .unrecognized ↔
    (opcodeOf w = 0#6 ∧ (functOf w).toNat ∈
      [1, 4, 5, 6, 7, 9, 10, 11, 14, 15, 16, 17, 18, 19, 20, 21, 22, 23, 25, 26, 27, 28, 29, 30, 31, 33, 35, 40, 41,
       44, 45, 46, 47, 48, 49, 50, 51, 52, 53, 54, 55, 56, 57, 58, 59, 60, 61, 62, 63]) ∨
    (opcodeOf w).toNat ∉ [0, 2, 3, 4, 5, 8, 10, 12, 13, 14, 35, 43]

/-- R71, R75: the decoder gives a machine instruction or none, never a pseudo-instruction, and gives none exactly
for the kind `unrecognized`. -/
def Obligations.DecoderGivesMachineInstructions : Prop :=
  ∀ (p : Config.Params) (w a : Word),
    ((decode p w a).toInstr = none ↔ (decode p w a).kind = .unrecognized) ∧
    ∀ i, (decode p w a).toInstr = some i → i.wf = true

/-! ### Arithmetic, logic, compare, multiply -/

/-- R110. -/
def Obligations.AddWritesWrappedSum : Prop :=
  ∀ (rd rs rt : RegId), EncodedAs (.add rd rs rt) (rFormat rs rt rd 0#5 0b100000#6) ∧
    ∀ s : State, WritesReg (.add rd rs rt) s rd
      (BitVec.ofNat 32 ((s.readReg rs).toNat + (s.readReg rt).toNat))

/-- `rs - rt` is the spec's reading of the name (G5, D12): log 7. -/
def Obligations.SubWritesWrappedDifference : Prop :=
  ∀ (rd rs rt : RegId), EncodedAs (.sub rd rs rt) (rFormat rs rt rd 0#5 0b100010#6) ∧
    ∀ s : State, WritesReg (.sub rd rs rt) s rd (BitVec.ofInt 32 ((s.readReg rs).toInt - (s.readReg rt).toInt))

/-- The spec's reading of the name (G6, D12): log 7. -/
def Obligations.AndWritesBitwiseAnd : Prop :=
  ∀ (rd rs rt : RegId), EncodedAs (.and rd rs rt) (rFormat rs rt rd 0#5 0b100100#6) ∧
    ∀ s : State, ∃ v : Word, WritesReg (.and rd rs rt) s rd v ∧
      ∀ n, v.getLsbD n = ((s.readReg rs).getLsbD n && (s.readReg rt).getLsbD n)

/-- The spec's reading of the name (G6, D12): log 7. -/
def Obligations.OrWritesBitwiseOr : Prop :=
  ∀ (rd rs rt : RegId), EncodedAs (.or rd rs rt) (rFormat rs rt rd 0#5 0b100101#6) ∧
    ∀ s : State, ∃ v : Word, WritesReg (.or rd rs rt) s rd v ∧
      ∀ n, v.getLsbD n = ((s.readReg rs).getLsbD n || (s.readReg rt).getLsbD n)

/-- The spec's reading of the name (G6, D12): log 7. -/
def Obligations.XorWritesBitwiseXor : Prop :=
  ∀ (rd rs rt : RegId), EncodedAs (.xor rd rs rt) (rFormat rs rt rd 0#5 0b100110#6) ∧
    ∀ s : State, ∃ v : Word, WritesReg (.xor rd rs rt) s rd v ∧
      ∀ n, v.getLsbD n = ((s.readReg rs).getLsbD n ^^ (s.readReg rt).getLsbD n)

/-- The spec's reading of the name (G6, D12): log 7. -/
def Obligations.NorWritesComplementOfOr : Prop :=
  ∀ (rd rs rt : RegId), EncodedAs (.nor rd rs rt) (rFormat rs rt rd 0#5 0b100111#6) ∧
    ∀ s : State, ∃ v : Word, WritesReg (.nor rd rs rt) s rd v ∧
      ∀ n, n < 32 → v.getLsbD n = !((s.readReg rs).getLsbD n || (s.readReg rt).getLsbD n)

/-- R116. -/
def Obligations.SltComparesSigned : Prop :=
  ∀ (rd rs rt : RegId), EncodedAs (.slt rd rs rt) (rFormat rs rt rd 0#5 0b101010#6) ∧
    ∀ s : State, WritesReg (.slt rd rs rt) s rd
      (if (s.readReg rs).toInt < (s.readReg rt).toInt then 1#32 else 0#32)

/-- The unsigned reading rests on the mnemonic alone (G7, D12): log 7. -/
def Obligations.SltuComparesUnsigned : Prop :=
  ∀ (rd rs rt : RegId), EncodedAs (.sltu rd rs rt) (rFormat rs rt rd 0#5 0b101011#6) ∧
    ∀ s : State, WritesReg (.sltu rd rs rt) s rd
      (if (s.readReg rs).toNat < (s.readReg rt).toNat then 1#32 else 0#32)

/-- The low 32 bits of the product, the same for both readings of the operands (G8, D12: log 7). The encoding
takes admissible parameters, `FUNCT_MUL` being the spec's choice (D11: log 6). -/
def Obligations.MulWritesLowProduct : Prop :=
  ∀ (rd rs rt : RegId),
    (∀ (p : Config.Params) (a : Word), p.wf = true → encode p (.mul rd rs rt) = rFormat rs rt rd 0#5 p.functMul ∧
      (decode p (rFormat rs rt rd 0#5 p.functMul) a).toInstr = some (.mul rd rs rt)) ∧
    ∀ s : State,
      WritesReg (.mul rd rs rt) s rd (BitVec.ofNat 32 ((s.readReg rs).toNat * (s.readReg rt).toNat)) ∧
      WritesReg (.mul rd rs rt) s rd (BitVec.ofInt 32 ((s.readReg rs).toInt * (s.readReg rt).toInt))

/-! ### Shifts -/

/-- `u(x[rt]) * 2^shamt` modulo `2^32`, whatever `rs` field the word has (G9, D12): log 7. -/
def Obligations.SllMultipliesByPowerOfTwo : Prop :=
  ∀ (rd rt : RegId) (sh : Shamt), EncodedAs (.sll rd rt sh) (rFormat 0#5 rt rd sh 0b000000#6) ∧
    ∀ s : State, WritesReg (.sll rd rt sh) s rd (BitVec.ofNat 32 ((s.readReg rt).toNat * 2 ^ sh.toNat))

/-- The floor of `u(x[rt]) / 2^shamt` (G9, D12): log 7. -/
def Obligations.SrlDividesUnsigned : Prop :=
  ∀ (rd rt : RegId) (sh : Shamt), EncodedAs (.srl rd rt sh) (rFormat 0#5 rt rd sh 0b000010#6) ∧
    ∀ s : State, WritesReg (.srl rd rt sh) s rd (BitVec.ofNat 32 ((s.readReg rt).toNat / 2 ^ sh.toNat))

/-- The floor of `s(x[rt]) / 2^shamt` (G9, D12): log 7. -/
def Obligations.SraDividesSigned : Prop :=
  ∀ (rd rt : RegId) (sh : Shamt), EncodedAs (.sra rd rt sh) (rFormat 0#5 rt rd sh 0b000011#6) ∧
    ∀ s : State, WritesReg (.sra rd rt sh) s rd
      (BitVec.ofInt 32 (Int.fdiv (s.readReg rt).toInt (2 ^ sh.toNat)))

/-! ### Immediates -/

/-- R140. -/
def Obligations.AddiAddsSignedImmediate : Prop :=
  ∀ (rt rs : RegId) (imm : Imm16), EncodedAs (.addi rt rs imm) (iFormat 0b001000#6 rs rt imm) ∧
    ∀ s : State, WritesReg (.addi rt rs imm) s rt (BitVec.ofInt 32 ((s.readReg rs).toNat + imm.toInt))

/-- R141. -/
def Obligations.SltiComparesSignedImmediate : Prop :=
  ∀ (rt rs : RegId) (imm : Imm16), EncodedAs (.slti rt rs imm) (iFormat 0b001010#6 rs rt imm) ∧
    ∀ s : State, WritesReg (.slti rt rs imm) s rt (if (s.readReg rs).toInt < imm.toInt then 1#32 else 0#32)

/-- R142: bits 31 to 16 of the result are zero. -/
def Obligations.AndiMasksToSixteenBits : Prop :=
  ∀ (rt rs : RegId) (imm : Imm16), EncodedAs (.andi rt rs imm) (iFormat 0b001100#6 rs rt imm) ∧
    ∀ s : State, ∃ v : Word, WritesReg (.andi rt rs imm) s rt v ∧
      ∀ n, v.getLsbD n = ((s.readReg rs).getLsbD n && (decide (n < 16) && imm.getLsbD n))

/-- R143: bits 31 to 16 of the register pass unchanged. -/
def Obligations.OriKeepsHighBits : Prop :=
  ∀ (rt rs : RegId) (imm : Imm16), EncodedAs (.ori rt rs imm) (iFormat 0b001101#6 rs rt imm) ∧
    ∀ s : State, ∃ v : Word, WritesReg (.ori rt rs imm) s rt v ∧
      ∀ n, v.getLsbD n = ((s.readReg rs).getLsbD n || (decide (n < 16) && imm.getLsbD n))

/-- R144: bits 31 to 16 of the register pass unchanged. -/
def Obligations.XoriKeepsHighBits : Prop :=
  ∀ (rt rs : RegId) (imm : Imm16), EncodedAs (.xori rt rs imm) (iFormat 0b001110#6 rs rt imm) ∧
    ∀ s : State, ∃ v : Word, WritesReg (.xori rt rs imm) s rt v ∧
      ∀ n, v.getLsbD n = ((s.readReg rs).getLsbD n ^^ (decide (n < 16) && imm.getLsbD n))

/-! ### Loads and stores -/

/-- R132: base plus signed displacement modulo `2^32`; with a hard-wired register 0 as base, the displacement
alone, a key in the lowest or highest 32768; the base is not modified, and no address stops the access. -/
def Obligations.EffectiveAddressWraps : Prop :=
  ∀ (s : State) (rs : RegId) (imm : Imm16),
    s.effectiveAddress rs imm = BitVec.ofInt 32 ((s.readReg rs).toNat + imm.toInt) ∧
    (s.params.zeroRegHardwired = true →
      (s.effectiveAddress 0#5 imm).toNat < 2 ^ 15 ∨ 2 ^ 32 - 2 ^ 15 ≤ (s.effectiveAddress 0#5 imm).toNat) ∧
    (∀ rt : RegId, (∃ t, exec (.sw rt rs imm) s = .next t ∧ t.readReg rs = s.readReg rs) ∧
      ∃ t, exec (.lw rt rs imm) s = .next t ∧ (rt ≠ rs → t.readReg rs = s.readReg rs))

/-- R130: the word at exactly the effective address, or zero when the key is absent, which stays absent. -/
def Obligations.LwReadsExactKey : Prop :=
  ∀ (rt rs : RegId) (imm : Imm16), EncodedAs (.lw rt rs imm) (iFormat 0b100011#6 rs rt imm) ∧
    ∀ s : State, WritesReg (.lw rt rs imm) s rt
      (match Mem.lookup s.mem (s.effectiveAddress rs imm).toNat with
        | some w => w
        | none => 0#32)

/-- R131: the cell at exactly the effective address becomes present with the register's word; no other key and
no register changes; a store to `pc + 4` is the very next word fetched. -/
def Obligations.SwWritesExactKey : Prop :=
  ∀ (rt rs : RegId) (imm : Imm16), EncodedAs (.sw rt rs imm) (iFormat 0b101011#6 rs rt imm) ∧
    ∀ s : State, ∃ t, exec (.sw rt rs imm) s = .next t ∧ RegsKept s t ∧
      OnlyKeyWritten s t (s.effectiveAddress rs imm) (s.readReg rt) ∧ ControlKept s t ∧ t.pc = s.pc + 4#32 ∧
      (s.effectiveAddress rs imm = s.pc + 4#32 → t.fetch = some (s.readReg rt))

/-! ### Control transfer -/

/-- R150, R151. -/
def Obligations.BeqBranchesOnEqual : Prop :=
  ∀ (rs rt : RegId) (imm : Imm16), EncodedAs (.beq rs rt imm) (iFormat 0b000100#6 rs rt imm) ∧
    ∀ s : State,
      (s.readReg rs = s.readReg rt → GoesTo (.beq rs rt imm) s (BitVec.ofInt 32 (s.pc.toNat + 4 + imm.toInt * 4))) ∧
      (s.readReg rs ≠ s.readReg rt → GoesTo (.beq rs rt imm) s (BitVec.ofNat 32 (s.pc.toNat + 4)))

/-- R150, R152. -/
def Obligations.BneBranchesOnDifferent : Prop :=
  ∀ (rs rt : RegId) (imm : Imm16), EncodedAs (.bne rs rt imm) (iFormat 0b000101#6 rs rt imm) ∧
    ∀ s : State,
      (s.readReg rs ≠ s.readReg rt → GoesTo (.bne rs rt imm) s (BitVec.ofInt 32 (s.pc.toNat + 4 + imm.toInt * 4))) ∧
      (s.readReg rs = s.readReg rt → GoesTo (.bne rs rt imm) s (BitVec.ofNat 32 (s.pc.toNat + 4)))

/-- The region bits are those of the jump's own address, the spec's choice (D16): log 17. -/
def Obligations.JGoesToTarget : Prop :=
  ∀ addr : Addr26, EncodedAs (.j addr) (jFormat 0b000010#6 addr) ∧
    ∀ s : State, GoesTo (.j addr) s (s.pc.extractLsb' 28 4 ++ addr ++ 0#2)

/-- R154; the region bits as for `j` (D16): log 17. -/
def Obligations.JalLinksAndGoesToTarget : Prop :=
  ∀ addr : Addr26, EncodedAs (.jal addr) (jFormat 0b000011#6 addr) ∧
    ∀ s : State, ∃ t, exec (.jal addr) s = .next t ∧ t.readReg 31#5 = BitVec.ofNat 32 (s.pc.toNat + 4) ∧
      (∀ q : RegId, q ≠ 31#5 → t.readReg q = s.readReg q) ∧ MemKept s t ∧ ControlKept s t ∧
      t.pc = s.pc.extractLsb' 28 4 ++ addr ++ 0#2

/-- R155: all 32 bits of the register, whatever the other fields of the word hold. -/
def Obligations.JrGoesToRegister : Prop :=
  ∀ rs : RegId, EncodedAs (.jr rs) (rFormat rs 0#5 0#5 0#5 0b001000#6) ∧
    (∀ (p : Config.Params) (rt rd : RegId) (sh : Shamt) (a : Word),
      (decode p (rFormat rs rt rd sh 0b001000#6) a).toInstr = some (.jr rs)) ∧
    ∀ s : State, GoesTo (.jr rs) s (s.readReg rs)

/-- A call and its return (R154, R155, scenario 5): `jr $ra` after `jal` continues behind the `jal`. -/
def Obligations.CallReturnsBehindTheCall : Prop :=
  ∀ (addr : Addr26) (s : State), ∃ t u, exec (.jal addr) s = .next t ∧ exec (.jr 31#5) t = .next u ∧
    u.pc = s.pc + 4#32 ∧ MemKept s u ∧ ControlKept s u ∧ ∀ q : RegId, q ≠ 31#5 → u.readReg q = s.readReg q

/-! ### System instructions and unrecognized words -/

/-- Both act under `SYSTEM_POLICY` alone, the spec's choice (D13): log 15. Under `halt` nothing changes but the
run state, and the run is of the class of faults. -/
def Obligations.SystemInstructionsFollowPolicy : Prop :=
  EncodedAs .syscall 0x0000000C#32 ∧ EncodedAs .brk 0x0000000D#32 ∧
  ∀ (i : Instr) (s : State), i = .syscall ∨ i = .brk →
    (s.params.systemPolicy = .nop → GoesTo i s (s.pc + 4#32)) ∧
    (s.params.systemPolicy = .halt → ∃ t, exec i s = .next t ∧ RegsKept s t ∧ MemKept s t ∧ t.pc = s.pc ∧
      t.params = s.params ∧ t.runState = .halted)

/-- R162: a fetched word that is no instruction, under either policy. -/
def Obligations.UnrecognizedWordsFollowPolicy : Prop :=
  ∀ (s : State) (w : Word), s.runState = .running → Mem.lookup s.mem s.pc.toNat = some w →
    (decode s.params w s.pc).kind = .unrecognized →
    ∃ t, step s = .next t ∧ RegsKept s t ∧ MemKept s t ∧ t.params = s.params ∧
      (s.params.unrecognizedPolicy = .nop → t.pc = s.pc + 4#32 ∧ t.runState = .running) ∧
      (s.params.unrecognizedPolicy = .halt →
        t.pc = s.pc ∧ t.runState = .halted ∧ t.runClass = .stoppedByPolicy w)

/-! ### Pseudo-instructions -/

/-- R96: `move` copies `x[rs]` as long as register 0 reads zero; the funct is of general knowledge (G2): log 5. -/
def Obligations.MoveCopiesRegister : Prop :=
  ∀ (rd rs : RegId),
    (∀ p : Config.Params, encode p (.move rd rs) = encode p (.add rd rs 0#5) ∧
      encode p (.move rd rs) = rFormat rs 0#5 rd 0#5 0b100000#6) ∧
    ∀ s : State, s.readReg 0#5 = 0#32 → WritesReg (.move rd rs) s rd (s.readReg rs)

/-- R97: the word with all fields zero is `sll $zero, $zero, 0`, and executing it changes nothing but the pc, with
register 0 hard-wired or not. That the decoder shows the word as that `sll` is of R72 and R75, by decision D17: log
26. -/
def Obligations.NopOnlyAdvances : Prop :=
  (∀ p : Config.Params, encode p .nop = 0x00000000#32 ∧ encode p (.sll 0#5 0#5 0#5) = 0x00000000#32 ∧
    decodeWord p 0x00000000#32 = some (.sll 0#5 0#5 0#5)) ∧
  ∀ s : State, GoesTo .nop s (s.pc + 4#32) ∧ GoesTo (.sll 0#5 0#5 0#5) s (s.pc + 4#32)

/-- `li` loads the sign-extended constant as long as register 0 reads zero (R98); `la` has its shape with the
assembler's immediate, the spec's choice (D20): log 22. -/
def Obligations.LiAndLaLoadSignedConstant : Prop :=
  ∀ (rt : RegId) (imm : Imm16),
    (∀ p : Config.Params, encode p (.li rt imm) = encode p (.addi rt 0#5 imm) ∧
      encode p (.la rt imm) = encode p (.addi rt 0#5 imm)) ∧
    ∀ s : State, s.readReg 0#5 = 0#32 →
      WritesReg (.li rt imm) s rt (BitVec.ofInt 32 imm.toInt) ∧
      WritesReg (.la rt imm) s rt (BitVec.ofInt 32 imm.toInt)

/-! ### The step -/

/-- The step around `exec` (R31): nothing is added to it. -/
def Obligations.StepRunsTheDecodedInstruction : Prop :=
  ∀ (s : State) (w : Word) (i : Instr), s.runState = .running → Mem.lookup s.mem s.pc.toNat = some w →
    (decode s.params w s.pc).toInstr = some i → step s = exec i s

/-- R45: fetch tests and reads exactly the key in the pc, aligned or not, and creates no cell. That the halting step
leaves registers and pc is R28's (D23), and that a step is one `exec` is R31's (D22): log 18. -/
def Obligations.FetchUsesTheExactKey : Prop :=
  ∀ s : State, s.runState = .running →
    (Mem.lookup s.mem s.pc.toNat = none → ∃ t, step s = .next t ∧ t.runState = .halted ∧ RegsKept s t ∧
      t.pc = s.pc ∧ MemKept s t ∧ t.params = s.params) ∧
    (∀ w, Mem.lookup s.mem s.pc.toNat = some w → s.fetch = some w ∧
      step s = match (decode s.params w s.pc).toInstr with
        | some i => exec i s
        | none => execUnrecognized s)

/-- R184: the step is total, and a halt is classed by what is at the pc. Halted is terminal (R28). -/
def Obligations.StepIsTotalAndHaltsAreClassed : Prop :=
  ∀ s : State, ∃ t, step s = .next t ∧
    (s.runState = .halted → t = s) ∧
    (s.runState = .running → t.runState = .halted →
      (Mem.lookup s.mem s.pc.toNat = none ∧ t.runClass = .finished s.pc) ∨
      (∃ w, Mem.lookup s.mem s.pc.toNat = some w ∧ t.runClass = .stoppedByPolicy w ∧
        (s.params.systemPolicy = .halt ∨ s.params.unrecognizedPolicy = .halt)))

/-- The ways into Halted (R28): (a) an absent key at the pc, (b) and (c) the two policies (D13, D14, D22, D23: log
15, 16, 18). -/
def Obligations.HaltedIsEnteredInExactlyThreeWays : Prop :=
  ∀ s t : State, s.runState = .running → step s = .next t →
    (t.runState = .halted ↔
      Mem.lookup s.mem s.pc.toNat = none ∨
      (∃ w, Mem.lookup s.mem s.pc.toNat = some w ∧ (decode s.params w s.pc).kind = .unrecognized ∧
        s.params.unrecognizedPolicy = .halt) ∨
      (∃ w, Mem.lookup s.mem s.pc.toNat = some w ∧
        ((decode s.params w s.pc).kind = .syscall ∨ (decode s.params w s.pc).kind = .brk) ∧
        s.params.systemPolicy = .halt)) ∧
    (t.runState = .halted → RegsKept s t ∧ MemKept s t ∧ t.pc = s.pc)

/-- R26: one assignment at the end of the step: the redirect target, once, else `pc + 4`; a step that halts
leaves the pc. -/
def Obligations.PcIsAdvancedOrRedirectedOnce : Prop :=
  (∀ (i : Instr) (s t : State), s.runState = .running → exec i s = .next t →
    (t.runState = .running → t.pc = nextPc i s) ∧ (t.runState = .halted → t.pc = s.pc)) ∧
  (∀ (s t : State) (w : Word), s.runState = .running → Mem.lookup s.mem s.pc.toNat = some w →
    (decode s.params w s.pc).kind = .unrecognized → step s = .next t → t.runState = .running →
    t.pc = s.pc + 4#32) ∧
  (∀ s t : State, step s = .next t → t.runState = .halted → t.pc = s.pc)

/-- R24: an instruction writes no register but its destination, and what it does depends on no register but its
sources; an unrecognized word reads and writes none. -/
def Obligations.OnlySourcesReadOnlyDestinationWritten : Prop :=
  (∀ (i : Instr) (s t : State), exec i s = .next t →
    ∀ q : RegId, some q ≠ destOf i → t.readReg q = s.readReg q) ∧
  (∀ (i : Instr) (s s' : State), s'.pc = s.pc → s'.mem = s.mem → s'.runState = s.runState →
    s'.params = s.params → (∀ q ∈ sourcesOf i, s'.readReg q = s.readReg q) →
    ∃ t t', exec i s = .next t ∧ exec i s' = .next t' ∧ t'.pc = t.pc ∧ t'.mem = t.mem ∧
      t'.runState = t.runState ∧ ∀ d, destOf i = some d → t'.readReg d = t.readReg d) ∧
  (∀ (s s' : State), s'.pc = s.pc → s'.runState = s.runState → s'.params = s.params →
    ∃ t t', execUnrecognized s = .next t ∧ execUnrecognized s' = .next t' ∧ RegsKept s t ∧ RegsKept s' t' ∧
      t'.pc = t.pc ∧ t'.runState = t.runState)

/-- The invariant is kept by every step: the memory stays canonical, a hard-wired register 0 holds zero, and the
parameters stay (R23, R33, R40). -/
def Obligations.StepKeepsTheInvariant : Prop :=
  ∀ s t : State, s.Inv → core.step s = .next t → State.Inv t ∧ t.params = s.params

/-- The invariant holds after reset, under all parameters, and after every load of the host. -/
def Obligations.ResetAndLoadMeetTheInvariant : Prop :=
  (∀ p : Config.Params, (State.resetWith p).Inv) ∧ State.reset.Inv ∧
  ∀ (s : State) (text : List Word) (data : List (Word × Word)), s.Inv → (s.loadImage text data).Inv

/-- Reset (R34, R190), under all parameters and under the defaults. The register values and the empty memory are
the spec's choices (D3, D25), `TEXT_BASE` too (D9): log 10, 12, 14. -/
def Obligations.ResetValues : Prop :=
  (∀ p : Config.Params, (∀ r : RegId, (State.resetWith p).readReg r = 0#32) ∧
    (State.resetWith p).pc = p.textBase ∧ (State.resetWith p).runState = .running ∧
    ∀ a, Mem.lookup (State.resetWith p).mem a = none) ∧
  core.reset = State.resetWith defaultParams ∧ core.reset.pc = 0x00400000#32

/-- R27: only `jr` can make an aligned pc misaligned; without exceptions, an instruction that halts keeps it. -/
def Obligations.OnlyJrMisalignsThePc : Prop :=
  ∀ s t : State, s.pcAligned → step s = .next t →
    (∀ w, Mem.lookup s.mem s.pc.toNat = some w → (decode s.params w s.pc).kind ≠ .jr) → t.pcAligned

/-- Presence (R32, R41): no step makes a present key absent, and only a fetched `sw` makes one present or changes a
cell (R43). -/
def Obligations.CellsAreNeverRemoved : Prop :=
  ∀ s t : State, step s = .next t →
    (∀ a, (Mem.lookup s.mem a).isSome = true → (Mem.lookup t.mem a).isSome = true) ∧
    (MemKept s t ∨ ∃ w, Mem.lookup s.mem s.pc.toNat = some w ∧ (decode s.params w s.pc).kind = .sw)

/-- R43: a write makes its key present with its word and touches no other; `sw` is the only instruction that
writes memory. -/
def Obligations.OnlySwWritesMemory : Prop :=
  (∀ (s : State) (a v : Word), OnlyKeyWritten s (s.memWrite a v) a v) ∧
  (∀ (i : Instr) (s t : State), exec i s = .next t →
    MemKept s t ∨ ∃ rt rs imm, i = .sw rt rs imm ∧ OnlyKeyWritten s t (s.effectiveAddress rs imm) (s.readReg rt))

/-- R32: a program cannot see presence by `lw`: adding a zero cell at an absent key changes no register and no pc
after any instruction; a fetch there does see it. -/
def Obligations.PresenceIsSeenByFetchAlone : Prop :=
  ∀ (s : State) (a : Word), Mem.lookup s.mem a.toNat = none →
    (∀ i : Instr, ∃ t t', exec i s = .next t ∧ exec i (s.memWrite a 0#32) = .next t' ∧ t'.pc = t.pc ∧
      t'.runState = t.runState ∧ RegsKept t t') ∧
    (s.runState = .running → s.pc = a →
      (∃ t, step s = .next t ∧ t.runState = .halted) ∧
      ∃ t', step (s.memWrite a 0#32) = .next t' ∧ t'.runState = .running ∧ t'.pc = a + 4#32)

/-- A trace element is emitted exactly for a step that executes and does not halt (R31, R36): the address, the
decoded record and the registers after the instruction's writes. -/
def Obligations.TraceShowsExecutedSteps : Prop :=
  ∀ s t : State, step s = .next t →
    (∀ e, traceElement s = some e → s.runState = .running ∧ t.runState = .running ∧ e.address = s.pc ∧
      (∃ w, Mem.lookup s.mem s.pc.toNat = some w ∧ e.decoded = decode s.params w s.pc) ∧
      ∀ r : RegId, e.regs[r.toNat]'(r.isLt) = t.readReg r) ∧
    (traceElement s = none → s.runState = .halted ∨ t.runState = .halted)

/-! ### The host -/

/-- The host loads between reset and the first step only, and reset alone leaves Halted (R7, R35, R191; D24: log
20). That a reset exists in every session, also while the core runs, is the model's choice: log 30. -/
def Obligations.HostLoadsOnlyBeforeTheFirstStep : Prop :=
  ∀ (x : Session) (a w : Word),
    (∃ y, x.apply .step = some y ∧ y.phase = .stepping ∧ step x.core = .next y.core ∧
      y.apply (.load a w) = none) ∧
    (∃ y, x.apply .reset = some y ∧ y.phase = .loading ∧ y.core = State.resetWith x.core.params ∧
      ∃ z, y.apply (.load a w) = some z ∧ z.phase = .loading ∧ OnlyKeyWritten y.core z.core a w ∧
        RegsKept y.core z.core ∧ z.core.pc = y.core.pc ∧ ControlKept y.core z.core) ∧
    (x.core.runState = .halted → ∃ y, x.apply .step = some y ∧ y.core = x.core)

/-- R192: after reset and the load of a program that fits below the top of the address space, exactly the keys
`TEXT_BASE + 4k` are present, each with its word; the registers, pc and run state are those of reset. -/
def Obligations.LoadedTextStandsAtItsKeys : Prop :=
  ∀ (p : Config.Params) (ws : List Word), p.textBase.toNat + 4 * ws.length ≤ 2 ^ 32 →
    let t := (State.resetWith p).loadWordsAt p.textBase ws
    (∀ k w, ws[k]? = some w → Mem.lookup t.mem (p.textBase.toNat + 4 * k) = some w) ∧
    (∀ a, (∀ k, k < ws.length → a ≠ p.textBase.toNat + 4 * k) → Mem.lookup t.mem a = none) ∧
    RegsKept (State.resetWith p) t ∧ t.pc = p.textBase ∧ ControlKept (State.resetWith p) t

/-! ### The assembler -/

/-- R85, R150: a branch assembled at `a` for a label at `t` lands on `t` when taken, and its word shows `t`; a
label out of reach is refused (D21), and by the model's choice so is one off the word grid (log 24) or reached only
across `2^32` (log 28). -/
def Obligations.AssembledBranchLandsOnItsLabel : Prop :=
  ∀ (a t : Word),
    (branchReaches a t = false → Asm.branchImm a t = .error .branchOutOfReach) ∧
    (branchReaches a t = true → ∃ imm, Asm.branchImm a t = .ok imm ∧
      ∀ (rs rt : RegId) (s : State), s.pc = a →
        (decode s.params (encode s.params (.beq rs rt imm)) a).btarget = t ∧
        (s.readReg rs = s.readReg rt → GoesTo (.beq rs rt imm) s t) ∧
        (s.readReg rs ≠ s.readReg rt → GoesTo (.bne rs rt imm) s t))

/-- R86, R153: a jump assembled at `a` for a label at `t` on the word grid of its region lands on `t`; its word shows
`t` when `t < 2^28` (R77); a label in another region is refused (D21), and by the model's choice one off the word
grid (log 24). -/
def Obligations.AssembledJumpLandsOnItsLabel : Prop :=
  ∀ (a t : Word),
    (jumpReaches a t = false → Asm.jumpField a t = .error .jumpOutOfRegion) ∧
    (jumpReaches a t = true → ∃ addr, Asm.jumpField a t = .ok addr ∧
      ∀ s : State, s.pc = a → GoesTo (.j addr) s t ∧
        (∃ u, exec (.jal addr) s = .next u ∧ u.pc = t ∧ u.readReg 31#5 = a + 4#32) ∧
        (t.toNat < 2 ^ 28 → (decode s.params (encode s.params (.j addr)) a).jtarget = t))

/-- R91: a label is bound to `TEXT_BASE + 4 ×` the number of instruction lines before it, and the `k`-th
instruction line is assembled at `TEXT_BASE + 4k` into one word. Past the top of the address space these wrap, the
model's choice: log 28. -/
def Obligations.TextLayoutIsFourPerLine : Prop :=
  (∀ (base : Word) (before after : List Asm.TextItem) (n : String),
    (n, base + BitVec.ofNat 32 (4 * (Asm.instrLines before).length)) ∈
      Asm.textSymbols base 0 (before ++ .label n :: after)) ∧
  (∀ (p : Config.Params) (f : Asm.LabelImm) (y : Asm.Symbols) (base : Word) (xs : List Asm.SourceInstr)
    (ws : List Word), Asm.encodeLines p f y base xs = .ok ws →
    ws.length = xs.length ∧ ∀ k x, xs[k]? = some x →
      ∃ i, Asm.resolve f y (base + BitVec.ofNat 32 (4 * k)) x = .ok i ∧ ws[k]? = some (encode p i))

/-- R92, R93: a `.word` value every 4 keys, a character's code point in every key and a zero after the last; the
next item starts where this one ends, with no padding. Past the top of the address space keys, frontier and labels
wrap (log 28), a label alone on its line is bound to the frontier where it stands, and an `.asciiz` needs no label
(log 31): the model's choice. -/
def Obligations.DataLayoutIsContiguous : Prop :=
  ∀ (a : Word) (vs : List Word) (before after : List Asm.DataItem) (n : String),
    (∀ k v, vs[k]? = some v →
      ((Asm.DataItem.word vs).cells a)[k]? = some (a + BitVec.ofNat 32 (4 * k), v) ∧
      ((Asm.DataItem.asciiz vs).cells a)[k]? = some (a + BitVec.ofNat 32 k, v)) ∧
    ((Asm.DataItem.word vs).cells a).length = vs.length ∧
    ((Asm.DataItem.asciiz vs).cells a)[vs.length]? = some (a + BitVec.ofNat 32 vs.length, 0#32) ∧
    ((Asm.DataItem.asciiz vs).cells a).length = vs.length + 1 ∧
    Asm.dataFrontier a [.word vs] = a + BitVec.ofNat 32 (4 * vs.length) ∧
    Asm.dataFrontier a [.asciiz vs] = a + BitVec.ofNat 32 (vs.length + 1) ∧
    (n, Asm.dataFrontier a before) ∈ Asm.dataSymbols a (before ++ .label n :: after) ∧
    Asm.dataCells a (before ++ after) = Asm.dataCells a before ++ Asm.dataCells (Asm.dataFrontier a before) after
end

