-- ==== Sys2Proof/Laws/Decode.lean ====
section
/-! SUPPORT. The fields of the three layouts, and the opcode map as a partition. -/

namespace Sys2Proof

/-! ### Slices of a concatenation -/

theorem slice_high {n m : Nat} (x : BitVec n) (y : BitVec m) (k l : Nat) (h : m ≤ k) :
    (x ++ y).extractLsb' k l = x.extractLsb' (k - m) l := by
  ext i hi
  have hk : ¬ (k + i < m) := by omega
  have he : k + i - m = k - m + i := by omega
  simp only [BitVec.getElem_extractLsb', BitVec.getLsbD_append, hk, if_false, he]

theorem slice_low {n m : Nat} (x : BitVec n) (y : BitVec m) (k l : Nat) (h : k + l ≤ m) :
    (x ++ y).extractLsb' k l = y.extractLsb' k l := by
  ext i hi
  have hk : k + i < m := by omega
  simp only [BitVec.getElem_extractLsb', BitVec.getLsbD_append, hk, if_true]

theorem slice_all {n : Nat} (x : BitVec n) : x.extractLsb' 0 n = x := by
  ext i hi
  simp

/-! ### The fields of the three layouts (R61 to R64) -/

section Fields
variable (rs rt rd : RegId) (sh : Shamt) (f op : OpCode) (imm : Imm16) (t : Addr26)

theorem functOf_rFormat : functOf (rFormat rs rt rd sh f) = f := by
  unfold functOf rFormat
  rw [slice_low _ f _ _ (by decide)]
  exact slice_all f

theorem shamtOf_rFormat : shamtOf (rFormat rs rt rd sh f) = sh := by
  unfold shamtOf rFormat
  rw [slice_high _ f _ _ (by decide),
    slice_low _ sh _ _ (by decide)]
  exact slice_all sh

theorem rdOf_rFormat : rdOf (rFormat rs rt rd sh f) = rd := by
  unfold rdOf rFormat
  rw [slice_high _ f _ _ (by decide),
    slice_high _ sh _ _ (by decide),
    slice_low _ rd _ _ (by decide)]
  exact slice_all rd

theorem rtOf_rFormat : rtOf (rFormat rs rt rd sh f) = rt := by
  unfold rtOf rFormat
  rw [slice_high _ f _ _ (by decide),
    slice_high _ sh _ _ (by decide),
    slice_high _ rd _ _ (by decide),
    slice_low _ rt _ _ (by decide)]
  exact slice_all rt

theorem rsOf_rFormat : rsOf (rFormat rs rt rd sh f) = rs := by
  unfold rsOf rFormat
  rw [slice_high _ f _ _ (by decide),
    slice_high _ sh _ _ (by decide),
    slice_high _ rd _ _ (by decide),
    slice_high _ rt _ _ (by decide),
    slice_low _ rs _ _ (by decide)]
  exact slice_all rs

theorem opcodeOf_rFormat : opcodeOf (rFormat rs rt rd sh f) = 0b000000#6 := by
  unfold opcodeOf rFormat
  rw [slice_high _ f _ _ (by decide),
    slice_high _ sh _ _ (by decide),
    slice_high _ rd _ _ (by decide),
    slice_high _ rt _ _ (by decide),
    slice_high _ rs _ _ (by decide)]
  exact slice_all 0b000000#6

theorem imm16Of_iFormat : imm16Of (iFormat op rs rt imm) = imm := by
  unfold imm16Of iFormat
  rw [slice_low _ imm _ _ (by decide)]
  exact slice_all imm

theorem rtOf_iFormat : rtOf (iFormat op rs rt imm) = rt := by
  unfold rtOf iFormat
  rw [slice_high _ imm _ _ (by decide),
    slice_low _ rt _ _ (by decide)]
  exact slice_all rt

theorem rsOf_iFormat : rsOf (iFormat op rs rt imm) = rs := by
  unfold rsOf iFormat
  rw [slice_high _ imm _ _ (by decide),
    slice_high _ rt _ _ (by decide),
    slice_low _ rs _ _ (by decide)]
  exact slice_all rs

theorem opcodeOf_iFormat : opcodeOf (iFormat op rs rt imm) = op := by
  unfold opcodeOf iFormat
  rw [slice_high _ imm _ _ (by decide),
    slice_high _ rt _ _ (by decide),
    slice_high _ rs _ _ (by decide)]
  exact slice_all op

theorem addr26Of_jFormat : addr26Of (jFormat op t) = t := by
  unfold addr26Of jFormat
  rw [slice_low _ t _ _ (by decide)]
  exact slice_all t

theorem opcodeOf_jFormat : opcodeOf (jFormat op t) = op := by
  unfold opcodeOf jFormat
  rw [slice_high _ t _ _ (by decide)]
  exact slice_all op

end Fields

/-- The class and kind of a word of class R (R72). -/
theorem kindOf_of_opcode_zero (p : Config.Params) {w : Word} (h : opcodeOf w = 0b000000#6) :
    kindOf p w = kindOfCode (rRows p) (functOf w) := by
  simp [kindOf, formatOf, h]

/-- The kind of a word of class I or J (R73). -/
theorem kindOf_of_opcode (p : Config.Params) {w : Word} (h : opcodeOf w ≠ 0b000000#6) :
    kindOf p w = kindOfCode opRows (opcodeOf w) := by
  unfold kindOf formatOf
  rw [if_neg h]
  by_cases hj : opcodeOf w = 0b000010#6 ∨ opcodeOf w = 0b000011#6
  · rw [if_pos hj]
  · rw [if_neg hj]

/-- The kind of an R-type word is read from its funct alone (R72). -/
theorem kindOf_rFormat (p : Config.Params) (rs rt rd : RegId) (sh : Shamt) (f : OpCode) :
    kindOf p (rFormat rs rt rd sh f) = kindOfCode (rRows p) f := by
  rw [kindOf_of_opcode_zero p (opcodeOf_rFormat ..), functOf_rFormat]

theorem kindOf_iFormat (p : Config.Params) {op : OpCode} (rs rt : RegId) (imm : Imm16) (h : op ≠ 0b000000#6) :
    kindOf p (iFormat op rs rt imm) = kindOfCode opRows op := by
  rw [kindOf_of_opcode p (by rw [opcodeOf_iFormat]; exact h), opcodeOf_iFormat]

theorem kindOf_jFormat (p : Config.Params) {op : OpCode} (t : Addr26) (h : op ≠ 0b000000#6) :
    kindOf p (jFormat op t) = kindOfCode opRows op := by
  rw [kindOf_of_opcode p (by rw [opcodeOf_jFormat]; exact h), opcodeOf_jFormat]

/-- An admissible `FUNCT_MUL` selects `mul`: it is no other row's (R70). -/
theorem kindOfCode_functMul {p : Config.Params} (h : p.wf = true) : kindOfCode (rRows p) p.functMul = .mul := by
  have hn : p.functMul ∉ otherFuncts := by
    simp only [Config.Params.wf, Bool.and_eq_true, Bool.not_eq_true', List.contains_eq_mem,
      decide_eq_false_iff_not] at h
    exact h.1
  simp only [otherFuncts, List.mem_cons, List.not_mem_nil, or_false, not_or] at hn
  simp [rRows, fixedRRows, kindOfCode, hn]

/-- The address a word stands at changes the displayed branch target alone (R71). -/
theorem toInstr_decode (p : Config.Params) (w a : Word) : (decode p w a).toInstr = decodeWord p w := rfl

/-- No two rows of the opcode map have the same code (R70). -/
theorem opcode_rows_distinct :
    (fixedRRows.map (·.1)).Nodup ∧ (opRows.map (·.1)).Nodup ∧ fixedRRows.map (·.1) = otherFuncts := by
  decide

end Sys2Proof
end

