-- ==== Sys2Proof/Laws/State.lean ====
section
/-! SUPPORT. One lemma per field per update of the state, and the reset state's fields. -/

namespace Sys2Proof.Machine

/-! ### advance -/

@[simp] theorem advance_regs (s : State) : s.advance.regs = s.regs := rfl
@[simp] theorem advance_pc (s : State) : s.advance.pc = s.pc + 4#32 := rfl
@[simp] theorem advance_runState (s : State) : s.advance.runState = s.runState := rfl
@[simp] theorem advance_mem (s : State) : s.advance.mem = s.mem := rfl
@[simp] theorem advance_params (s : State) : s.advance.params = s.params := rfl

/-! ### redirect -/

@[simp] theorem redirect_regs (s : State) (t : Word) : (s.redirect t).regs = s.regs := rfl
@[simp] theorem redirect_pc (s : State) (t : Word) : (s.redirect t).pc = t := rfl
@[simp] theorem redirect_runState (s : State) (t : Word) : (s.redirect t).runState = s.runState := rfl
@[simp] theorem redirect_mem (s : State) (t : Word) : (s.redirect t).mem = s.mem := rfl
@[simp] theorem redirect_params (s : State) (t : Word) : (s.redirect t).params = s.params := rfl

/-! ### halt -/

@[simp] theorem halt_regs (s : State) : s.halt.regs = s.regs := rfl
@[simp] theorem halt_pc (s : State) : s.halt.pc = s.pc := rfl
@[simp] theorem halt_runState (s : State) : s.halt.runState = .halted := rfl
@[simp] theorem halt_mem (s : State) : s.halt.mem = s.mem := rfl
@[simp] theorem halt_params (s : State) : s.halt.params = s.params := rfl

/-! ### memWrite -/

@[simp] theorem memWrite_regs (s : State) (a v : Word) : (s.memWrite a v).regs = s.regs := rfl
@[simp] theorem memWrite_pc (s : State) (a v : Word) : (s.memWrite a v).pc = s.pc := rfl
@[simp] theorem memWrite_runState (s : State) (a v : Word) : (s.memWrite a v).runState = s.runState := rfl
@[simp] theorem memWrite_mem (s : State) (a v : Word) : (s.memWrite a v).mem = Mem.insert s.mem a.toNat v := rfl
@[simp] theorem memWrite_params (s : State) (a v : Word) : (s.memWrite a v).params = s.params := rfl

/-! ### writeReg -/

@[simp] theorem writeReg_pc (s : State) (r : RegId) (v : Word) : (s.writeReg r v).pc = s.pc := by
  unfold State.writeReg; split <;> rfl
@[simp] theorem writeReg_runState (s : State) (r : RegId) (v : Word) :
    (s.writeReg r v).runState = s.runState := by
  unfold State.writeReg; split <;> rfl
@[simp] theorem writeReg_mem (s : State) (r : RegId) (v : Word) : (s.writeReg r v).mem = s.mem := by
  unfold State.writeReg; split <;> rfl
@[simp] theorem writeReg_params (s : State) (r : RegId) (v : Word) :
    (s.writeReg r v).params = s.params := by
  unfold State.writeReg; split <;> rfl

/-! ### reset -/

@[simp] theorem resetWith_pc (p : Config.Params) : (State.resetWith p).pc = p.textBase := rfl
@[simp] theorem resetWith_runState (p : Config.Params) : (State.resetWith p).runState = .running := rfl
@[simp] theorem resetWith_mem (p : Config.Params) : (State.resetWith p).mem = [] := rfl
@[simp] theorem resetWith_params (p : Config.Params) : (State.resetWith p).params = p := rfl

end Sys2Proof.Machine
end

