-- ==== Sys2Proof/Laws/Ops.lean ====
section
/-! SUPPORT. What the shared operations do: memory, registers, fetch, and the ways an instruction ends. -/

namespace Sys2Proof.Machine

/-! ### Memory -/

theorem lookup_insert_same (m : Mem) (a : Nat) (w : Word) : Mem.lookup (Mem.insert m a w) a = some w := by
  induction m with
  | nil => simp [Mem.insert, Mem.lookup]
  | cons e m ih =>
    obtain ⟨k, v⟩ := e
    unfold Mem.insert
    split
    · simp [Mem.lookup]
    · split
      · simp [Mem.lookup]
      · simp [Mem.lookup, *]

theorem lookup_insert_other (m : Mem) {a b : Nat} (w : Word) (h : b ≠ a) :
    Mem.lookup (Mem.insert m a w) b = Mem.lookup m b := by
  induction m with
  | nil => simp [Mem.insert, Mem.lookup, h]
  | cons e m ih =>
    obtain ⟨k, v⟩ := e
    unfold Mem.insert
    split
    · simp [Mem.lookup, h]
    · split
      · next hk => subst hk; simp [Mem.lookup, h]
      · simp [Mem.lookup, ih]

/-- What one insertion does to every key. -/
theorem lookup_insert (m : Mem) (a b : Nat) (w : Word) :
    Mem.lookup (Mem.insert m a w) b = if b = a then some w else Mem.lookup m b := by
  split
  · next h => rw [h, lookup_insert_same]
  · next h => exact lookup_insert_other m w h

theorem risingFrom_cons (lo k : Nat) (v : Word) (m : Mem) :
    Mem.risingFrom lo ((k, v) :: m) = true ↔ lo ≤ k ∧ k < 2 ^ 32 ∧ Mem.risingFrom (k + 1) m = true := by
  simp only [Mem.risingFrom, Bool.and_eq_true, decide_eq_true_eq, and_assoc]

theorem insert_risingFrom (m : Mem) {lo a : Nat} (w : Word) (hm : Mem.risingFrom lo m = true) (hlo : lo ≤ a)
    (ha : a < 2 ^ 32) : Mem.risingFrom lo (Mem.insert m a w) = true := by
  induction m generalizing lo with
  | nil => exact (risingFrom_cons ..).mpr ⟨hlo, ha, rfl⟩
  | cons e m ih =>
    obtain ⟨k, v⟩ := e
    obtain ⟨hk, hk32, hrest⟩ := (risingFrom_cons ..).mp hm
    unfold Mem.insert
    split
    · next h =>
      exact (risingFrom_cons ..).mpr ⟨hlo, ha, (risingFrom_cons ..).mpr ⟨h, hk32, hrest⟩⟩
    · split
      · next h => subst h; exact (risingFrom_cons ..).mpr ⟨hk, hk32, hrest⟩
      · next h h' => exact (risingFrom_cons ..).mpr ⟨hk, hk32, ih hrest (by omega)⟩

/-- Every memory operation keeps the canonical form: insertion at a 32-bit key is the only one that changes the
memory. -/
theorem insert_wf {m : Mem} (a w : Word) (h : m.wf = true) : (Mem.insert m a.toNat w).wf = true :=
  insert_risingFrom m w h (Nat.zero_le _) a.isLt

theorem memWrite_wf {s : State} (a v : Word) (h : s.mem.wf = true) : (s.memWrite a v).mem.wf = true :=
  insert_wf a v h

/-- In a canonical memory no key below the first listed one is present. -/
theorem lookup_below {m : Mem} {lo a : Nat} (h : Mem.risingFrom lo m = true) (ha : a < lo) :
    Mem.lookup m a = none := by
  induction m generalizing lo with
  | nil => rfl
  | cons e m ih =>
    obtain ⟨k, v⟩ := e
    obtain ⟨hk, -, hrest⟩ := (risingFrom_cons ..).mp h
    have hne : a ≠ k := by omega
    simp only [Mem.lookup, hne, if_false]
    exact ih hrest (by omega)

theorem memRead_memWrite (s : State) (a b v : Word) :
    (s.memWrite a v).memRead b = if b = a then v else s.memRead b := by
  simp only [State.memRead, memWrite_mem, lookup_insert, BitVec.toNat_inj]
  split <;> rfl

theorem memPresent_memWrite (s : State) (a b v : Word) :
    (s.memWrite a v).memPresent b = (decide (b = a) || s.memPresent b) := by
  simp only [State.memPresent, memWrite_mem, lookup_insert, BitVec.toNat_inj]
  split <;> simp [*]

/-! ### Registers -/

@[simp] theorem isHardZero_advance (s : State) (r : RegId) : s.advance.isHardZero r = s.isHardZero r := rfl
@[simp] theorem isHardZero_redirect (s : State) (t : Word) (r : RegId) :
    (s.redirect t).isHardZero r = s.isHardZero r := rfl
@[simp] theorem isHardZero_memWrite (s : State) (a v : Word) (r : RegId) :
    (s.memWrite a v).isHardZero r = s.isHardZero r := rfl
@[simp] theorem isHardZero_writeReg (s : State) (q r : RegId) (v : Word) :
    (s.writeReg q v).isHardZero r = s.isHardZero r := by
  simp [State.isHardZero]

@[simp] theorem readReg_advance (s : State) (r : RegId) : s.advance.readReg r = s.readReg r := rfl
@[simp] theorem readReg_redirect (s : State) (t : Word) (r : RegId) : (s.redirect t).readReg r = s.readReg r := rfl
@[simp] theorem readReg_halt (s : State) (r : RegId) : s.halt.readReg r = s.readReg r := rfl
@[simp] theorem readReg_memWrite (s : State) (a v : Word) (r : RegId) :
    (s.memWrite a v).readReg r = s.readReg r := rfl

theorem readReg_hardZero {s : State} {r : RegId} (h : s.isHardZero r = true) : s.readReg r = 0#32 := by
  simp [State.readReg, h]

/-- What a register reads after a write to one (R22, R23). -/
theorem readReg_writeReg (s : State) (r q : RegId) (v : Word) :
    (s.writeReg r v).readReg q = if q = r ∧ s.isHardZero r = false then v else s.readReg q := by
  unfold State.readReg
  rw [isHardZero_writeReg]
  by_cases hq : s.isHardZero q = true
  · have : ¬ (q = r ∧ s.isHardZero r = false) := by
      rintro ⟨rfl, h⟩
      simp [h] at hq
    simp [hq, this]
  · by_cases hr : s.isHardZero r = true
    · simp [State.writeReg, hr]
    · simp only [State.writeReg, hr, hq, Bool.false_eq_true, if_false, Vector.getElem_set, and_true]
      by_cases h : q = r
      · simp [h]
      · have hn : ¬ r.toNat = q.toNat := fun e => h (BitVec.eq_of_toNat_eq e.symm)
        simp [h, hn]

theorem readReg_writeReg_other (s : State) {r q : RegId} (v : Word) (h : q ≠ r) :
    (s.writeReg r v).readReg q = s.readReg q := by
  simp [readReg_writeReg, h]

theorem readReg_reset (p : Config.Params) (r : RegId) : (State.resetWith p).readReg r = 0#32 := by
  simp [State.readReg, State.resetWith]

/-- A write keeps the cell of a hard-wired register 0. -/
theorem writeReg_cell_zero (s : State) (r : RegId) (v : Word) (h : s.params.zeroRegHardwired = true) :
    (s.writeReg r v).regs[0] = s.regs[0] := by
  unfold State.writeReg
  split
  · rfl
  · next hr =>
    have hne : r.toNat ≠ 0 := by
      intro e
      have : r = 0#5 := BitVec.eq_of_toNat_eq (by simpa using e)
      simp [State.isHardZero, h, this] at hr
    simp [hne]

/-! ### The ways an instruction ends -/

/-- `finishWith` always completes, and in this state. -/
theorem finishWith_eq (s : State) (r : RegId) (v : Word) : s.finishWith r v = .next (s.writeReg r v).advance := rfl

/-- `branchIf` always completes: its next state differs from `s` in the pc alone. -/
theorem branchIf_eq (s : State) (taken : Bool) (t : Word) :
    s.branchIf taken t = .next { s with pc := if taken then t else s.pc + 4#32 } := by
  cases taken <;> rfl

/-- `underPolicy` always completes. -/
theorem underPolicy_cases (s : State) (pol : Config.Policy) :
    (pol = .nop ∧ s.underPolicy pol = .next s.advance) ∨ (pol = .halt ∧ s.underPolicy pol = .next s.halt) := by
  cases pol
  · exact .inl ⟨rfl, rfl⟩
  · exact .inr ⟨rfl, rfl⟩

end Sys2Proof.Machine
end

