-- ==== Sys2Proof/Laws/Effects.lean ====
section
/-! SUPPORT. The frame of each shared operation, in the terms claims use: said once, cited for every
instruction. -/

namespace Sys2Proof.Machine

/-- Everything `finishWith` does: an instruction that ends so writes one register and goes on. -/
theorem writesReg_of_finishWith {i : Instr} {s : State} {r : RegId} {v : Word}
    (h : exec i s = s.finishWith r v) : WritesReg i s r v := by
  refine ⟨_, h, ⟨fun hz => ?_, fun hz => ?_, fun q hq => ?_⟩, fun a => ?_, ⟨?_, ?_⟩, ?_⟩
  · simp [readReg_writeReg, hz]
  · exact readReg_hardZero (by simpa using hz)
  · simp [readReg_writeReg_other, hq]
  · simp
  · simp
  · simp
  · simp

/-- Everything `redirect` does: an instruction that ends so changes the pc alone. -/
theorem goesTo_of_redirect {i : Instr} {s : State} {t : Word} (h : exec i s = .next (s.redirect t)) :
    GoesTo i s t :=
  ⟨_, h, fun _ => rfl, fun _ => rfl, ⟨rfl, rfl⟩, rfl⟩

/-- Everything `branchIf` does. -/
theorem goesTo_of_branchIf {i : Instr} {s : State} {b : Bool} {t : Word} (h : exec i s = s.branchIf b t) :
    GoesTo i s (if b then t else s.pc + 4#32) := by
  cases b
  · exact goesTo_of_redirect (t := s.pc + 4#32) h
  · exact goesTo_of_redirect h

/-- Everything `memWrite` does to memory (R43). -/
theorem onlyKeyWritten_memWrite (s : State) (a v : Word) : OnlyKeyWritten s (s.memWrite a v) a v :=
  ⟨lookup_insert_same .., fun _ hb => lookup_insert_other _ _ hb⟩

end Sys2Proof.Machine
end

