-- ==== Sys2Proof/Laws/Operands.lean ====
section
/-! SUPPORT. The operand forms in exact integers: immediates, the effective address, the targets. -/

namespace Sys2Proof.Machine

/-- Sign extension keeps the signed reading (R10, R65). -/
theorem sext32_toInt (v : Imm16) : (sext32 v).toInt = v.toInt := by
  unfold sext32
  exact BitVec.toInt_signExtend_of_le (by decide)

theorem sext32_eq_ofInt (v : Imm16) : sext32 v = BitVec.ofInt 32 v.toInt := by
  rw [← sext32_toInt, BitVec.ofInt_toInt]

/-- Zero extension keeps the low 16 bits and clears the rest (R10, R66). -/
theorem zext32_getLsbD (v : Imm16) (n : Nat) : (zext32 v).getLsbD n = (decide (n < 16) && v.getLsbD n) := by
  simp only [zext32, BitVec.getLsbD_setWidth]
  by_cases h : n < 16
  · have : n < 32 := by omega
    simp [h, this]
  · simp [h, BitVec.getLsbD_of_ge v n (by omega)]

/-- A word plus a sign-extended immediate is the exact sum, wrapped (R132, R140). -/
theorem add_sext32 (x : Word) (v : Imm16) : x + sext32 v = BitVec.ofInt 32 (x.toNat + v.toInt) := by
  rw [BitVec.ofInt_add, ← sext32_eq_ofInt]
  simp

/-- The effective address is the exact sum, wrapped (R132). -/
theorem effectiveAddress_eq (s : State) (rs : RegId) (imm : Imm16) :
    s.effectiveAddress rs imm = BitVec.ofInt 32 ((s.readReg rs).toNat + imm.toInt) := add_sext32 _ _

end Sys2Proof.Machine
end

