-- ==== Sys2Proof/Laws/PerInstr.lean ====
section
/-! SUPPORT. Laws that hold of every instruction, one lemma per constructor. -/

namespace Sys2Proof.Laws.Expansion

/-- What an instruction is assembled to is a machine instruction and has the same word (R96 to R99). -/
def Statement (i : Instr) : Prop := i.expand.wf = true ∧ ∀ p, encode p i = encode p i.expand

theorem add (rd : RegId) (rs : RegId) (rt : RegId) : Statement (.add rd rs rt) := ⟨rfl, fun _ => rfl⟩
theorem sub (rd : RegId) (rs : RegId) (rt : RegId) : Statement (.sub rd rs rt) := ⟨rfl, fun _ => rfl⟩
theorem and (rd : RegId) (rs : RegId) (rt : RegId) : Statement (.and rd rs rt) := ⟨rfl, fun _ => rfl⟩
theorem or (rd : RegId) (rs : RegId) (rt : RegId) : Statement (.or rd rs rt) := ⟨rfl, fun _ => rfl⟩
theorem xor (rd : RegId) (rs : RegId) (rt : RegId) : Statement (.xor rd rs rt) := ⟨rfl, fun _ => rfl⟩
theorem nor (rd : RegId) (rs : RegId) (rt : RegId) : Statement (.nor rd rs rt) := ⟨rfl, fun _ => rfl⟩
theorem slt (rd : RegId) (rs : RegId) (rt : RegId) : Statement (.slt rd rs rt) := ⟨rfl, fun _ => rfl⟩
theorem sltu (rd : RegId) (rs : RegId) (rt : RegId) : Statement (.sltu rd rs rt) := ⟨rfl, fun _ => rfl⟩
theorem mul (rd : RegId) (rs : RegId) (rt : RegId) : Statement (.mul rd rs rt) := ⟨rfl, fun _ => rfl⟩
theorem sll (rd : RegId) (rt : RegId) (sh : Shamt) : Statement (.sll rd rt sh) := ⟨rfl, fun _ => rfl⟩
theorem srl (rd : RegId) (rt : RegId) (sh : Shamt) : Statement (.srl rd rt sh) := ⟨rfl, fun _ => rfl⟩
theorem sra (rd : RegId) (rt : RegId) (sh : Shamt) : Statement (.sra rd rt sh) := ⟨rfl, fun _ => rfl⟩
theorem jr (rs : RegId) : Statement (.jr rs) := ⟨rfl, fun _ => rfl⟩
theorem syscall : Statement .syscall := ⟨rfl, fun _ => rfl⟩
theorem brk : Statement .brk := ⟨rfl, fun _ => rfl⟩
theorem addi (rt : RegId) (rs : RegId) (imm : Imm16) : Statement (.addi rt rs imm) := ⟨rfl, fun _ => rfl⟩
theorem slti (rt : RegId) (rs : RegId) (imm : Imm16) : Statement (.slti rt rs imm) := ⟨rfl, fun _ => rfl⟩
theorem andi (rt : RegId) (rs : RegId) (imm : Imm16) : Statement (.andi rt rs imm) := ⟨rfl, fun _ => rfl⟩
theorem ori (rt : RegId) (rs : RegId) (imm : Imm16) : Statement (.ori rt rs imm) := ⟨rfl, fun _ => rfl⟩
theorem xori (rt : RegId) (rs : RegId) (imm : Imm16) : Statement (.xori rt rs imm) := ⟨rfl, fun _ => rfl⟩
theorem lw (rt : RegId) (rs : RegId) (imm : Imm16) : Statement (.lw rt rs imm) := ⟨rfl, fun _ => rfl⟩
theorem sw (rt : RegId) (rs : RegId) (imm : Imm16) : Statement (.sw rt rs imm) := ⟨rfl, fun _ => rfl⟩
theorem beq (rs : RegId) (rt : RegId) (imm : Imm16) : Statement (.beq rs rt imm) := ⟨rfl, fun _ => rfl⟩
theorem bne (rs : RegId) (rt : RegId) (imm : Imm16) : Statement (.bne rs rt imm) := ⟨rfl, fun _ => rfl⟩
theorem j (t : Addr26) : Statement (.j t) := ⟨rfl, fun _ => rfl⟩
theorem jal (t : Addr26) : Statement (.jal t) := ⟨rfl, fun _ => rfl⟩
theorem move (rd : RegId) (rs : RegId) : Statement (.move rd rs) := ⟨rfl, fun _ => rfl⟩
theorem nop : Statement .nop := ⟨rfl, fun _ => rfl⟩
theorem li (rt : RegId) (imm : Imm16) : Statement (.li rt imm) := ⟨rfl, fun _ => rfl⟩
theorem la (rt : RegId) (imm : Imm16) : Statement (.la rt imm) := ⟨rfl, fun _ => rfl⟩

end Sys2Proof.Laws.Expansion
end

