-- ==== Sys2Proof/Laws/Step.lean ====
section
/-! SUPPORT. Everything one instruction and one step can do, said once; invariants are derived from this. -/

namespace Sys2Proof.Machine

/-- The instruction kinds that redirect the pc (R150 to R155). -/
inductive Effect (s : State) : State → Prop where
  /-- A register written, the pc advanced. -/
  | reg (r : RegId) (v : Word) : Effect s (s.writeReg r v).advance
  /-- A cell written, the pc advanced. -/
  | store (a v : Word) : Effect s (s.memWrite a v).advance
  /-- Nothing but the pc. -/
  | go (t : Word) : Effect s (s.redirect t)
  /-- The link register and the pc. -/
  | link (v t : Word) : Effect s ((s.writeReg linkReg v).redirect t)
  /-- Nothing but the run state. -/
  | halt : Effect s s.halt

theorem effect_branchIf (s : State) (b : Bool) (t : Word) : ∃ u, s.branchIf b t = .next u ∧ Effect s u := by
  cases b
  · exact ⟨_, rfl, .go (s.pc + 4#32)⟩
  · exact ⟨_, rfl, .go t⟩

theorem effect_underPolicy (s : State) (pol : Config.Policy) : ∃ u, s.underPolicy pol = .next u ∧ Effect s u := by
  cases pol
  · exact ⟨_, rfl, .go (s.pc + 4#32)⟩
  · exact ⟨_, rfl, .halt⟩

/-- Every instruction answers a next state, by one of the effects. -/
theorem exec_effect (i : Instr) (s : State) : ∃ t, exec i s = .next t ∧ Effect s t := by
  cases i with
  | add | sub | and | or | xor | nor | slt | sltu | mul => exact ⟨_, rfl, .reg _ _⟩
  | sll | srl | sra => exact ⟨_, rfl, .reg _ _⟩
  | addi | slti | andi | ori | xori | lw => exact ⟨_, rfl, .reg _ _⟩
  | move | nop | li | la => exact ⟨_, rfl, .reg _ _⟩
  | sw => exact ⟨_, rfl, .store _ _⟩
  | j | jr => exact ⟨_, rfl, .go _⟩
  | jal => exact ⟨_, rfl, .link _ _⟩
  | beq | bne => exact effect_branchIf _ _ _
  | syscall | brk => exact effect_underPolicy _ _

/-- Everything a step can do. -/
theorem step_cases {s t : State} (h : step s = .next t) :
    (s.runState = .halted ∧ t = s) ∨
    (s.runState = .running ∧ s.fetch = none ∧ t = s.halt) ∨
    (∃ w i, s.runState = .running ∧ s.fetch = some w ∧ (decode s.params w s.pc).toInstr = some i ∧
      exec i s = .next t) ∨
    (∃ w, s.runState = .running ∧ s.fetch = some w ∧ (decode s.params w s.pc).toInstr = none ∧
      execUnrecognized s = .next t) := by
  unfold step at h
  split at h
  · next hr => exact .inl ⟨hr, by injection h with h; exact h.symm⟩
  · next hr =>
    split at h
    · next hf => exact .inr (.inl ⟨hr, hf, by injection h with h; exact h.symm⟩)
    · next w hf =>
      split at h
      · next i hi => exact .inr (.inr (.inl ⟨w, i, hr, hf, hi, h⟩))
      · next hi => exact .inr (.inr (.inr ⟨w, hr, hf, hi, h⟩))

/-- A step changes nothing or has one of the effects. -/
theorem step_effect {s t : State} (h : step s = .next t) : t = s ∨ Effect s t := by
  obtain ⟨-, rfl⟩ | ⟨-, -, rfl⟩ | ⟨w, i, -, -, -, he⟩ | ⟨w, -, -, -, he⟩ := step_cases h
  · exact .inl rfl
  · exact .inr .halt
  · obtain ⟨u, hu, hE⟩ := exec_effect i s
    rw [hu] at he
    injection he with he
    exact .inr (he ▸ hE)
  · obtain ⟨u, hu, hE⟩ := effect_underPolicy s s.params.unrecognizedPolicy
    rw [execUnrecognized, hu] at he
    injection he with he
    exact .inr (he ▸ hE)

end Sys2Proof.Machine
end

