-- ==== Sys2Proof/Tests/Slice0.lean ====
section
/-! SUPPORT. Tests of single decodes, steps and source lines, their expected values from spec/95_test_vectors.md
(the section stands at each), and a witness for the hypotheses of each obligation that has some. -/

namespace Sys2Proof.Tests
open Sys2Proof Sys2Proof.Machine

/-! ### Helpers -/

def haltParams : Config.Params := { defaultParams with unrecognizedPolicy := .halt, systemPolicy := .halt }
def softParams : Config.Params := { defaultParams with zeroRegHardwired := false }
/-- `FUNCT_MUL` at a funct no row has, and another `TEXT_BASE`. -/
def otherParams : Config.Params := { defaultParams with functMul := 0b111111#6, textBase := 0x00001000#32 }

def withRegs (s : State) : List (RegId × Word) → State
  | [] => s
  | (r, v) :: rest => withRegs (s.writeReg r v) rest

/-- A running machine at `pc`, with these registers and cells. -/
def machine (p : Config.Params) (pc : Word) (regs : List (RegId × Word)) (cells : List (Word × Word)) : State :=
  withRegs { (State.resetWith p).loadCells cells with pc := pc } regs

/-- At `TEXT_BASE` under the defaults, with the word `w` there. -/
def atBase (w : Word) (regs : List (RegId × Word)) (cells : List (Word × Word)) : State :=
  machine defaultParams 0x00400000#32 regs ((0x00400000#32, w) :: cells)

/-- What a step answers, seen through `f`. -/
def seen {α : Type} (s : State) (f : State → α) : Option α :=
  match step s with
  | .next t => some (f t)
  | .fault _ => none
  | .refused _ => none

/-- Register `r` and the pc after the word ran at `TEXT_BASE`. -/
def result (w : Word) (regs : List (RegId × Word)) (r : RegId) : Option (Word × Word) :=
  seen (atBase w regs []) fun t => (t.readReg r, t.pc)

/-- The pc after the word ran at `pc`. -/
def pcAfter (w pc : Word) (regs : List (RegId × Word)) : Option Word :=
  seen (machine defaultParams pc regs [(pc, w)]) State.pc

/-- Run state and pc after the word ran at `pc` under `p`. -/
def control (p : Config.Params) (w pc : Word) : Option (RunState × Word) :=
  seen (machine p pc [] [(pc, w)]) fun t => (t.runState, t.pc)

/-! ### WellFormed -/

theorem test_wf_refuses_pseudo :
    Instr.wf (.move 9#5 8#5) = false ∧ Instr.wf .nop = false ∧ Instr.wf (.li 8#5 1#16) = false ∧
    Instr.wf (.la 8#5 1#16) = false ∧ Instr.wf (.add 9#5 8#5 0#5) = true := by decide

/-- R70: `FUNCT_MUL` at the funct of `add`; R27: a `TEXT_BASE` off the word grid. -/
theorem test_wf_refuses_params :
    Config.Params.wf { defaultParams with functMul := 0b100000#6 } = false ∧
    Config.Params.wf { defaultParams with textBase := 0x00400001#32 } = false ∧
    defaultParams.wf = true ∧ otherParams.wf = true := by decide

/-- §2.1 refusals. -/
theorem test_wf_refuses_literals :
    immLiteralOk 32768 = false ∧ immLiteralOk (-32769) = false ∧ immLiteralOk 32767 = true ∧
    immLiteralOk (-32768) = true ∧ shamtLiteralOk 32 = false ∧ shamtLiteralOk (-1) = false ∧
    shamtLiteralOk 31 = true ∧ wordLiteralOk 4294967296 = false ∧ wordLiteralOk (-2147483649) = false ∧
    wordLiteralOk 4294967295 = true := by decide

/-- R85: the two ends of §2.6's branches, one word beyond each, and a distance off the word grid. -/
theorem test_wf_refuses_branches :
    branchReaches 0x00400000#32 0x00420000#32 = true ∧ branchReaches 0x00400000#32 0x00420004#32 = false ∧
    branchReaches 0x00400000#32 0x003E0004#32 = true ∧ branchReaches 0x00400000#32 0x003E0000#32 = false ∧
    branchReaches 0x00400000#32 0x00400006#32 = false := by decide

/-- The model's choice (log 28): the distance does not wrap, so the word behind the top is out of reach. -/
theorem test_wf_refuses_branch_across_the_top :
    branchReaches 0xFFFFFFF8#32 0x00000000#32 = false ∧ branchReaches 0xFFFFFFF8#32 0xFFFFFFFC#32 = true := by decide

/-- R86: another region, and a target off the word grid. -/
theorem test_wf_refuses_jumps :
    jumpReaches 0x00400000#32 0x0FFFFFFC#32 = true ∧ jumpReaches 0x00400000#32 0x10000000#32 = false ∧
    jumpReaches 0x00400000#32 0x00400016#32 = false := by decide

/-! ### Decode: one word of each constructor (§2.1, bit strings) -/

theorem test_decode_registers :
    decodeWord defaultParams 0b00000001000010010101000000100000#32 = some (.add 10#5 8#5 9#5) ∧
    decodeWord defaultParams 0b00000010001100101000000000100010#32 = some (.sub 16#5 17#5 18#5) ∧
    decodeWord defaultParams 0b00000001000010010101000000100100#32 = some (.and 10#5 8#5 9#5) ∧
    decodeWord defaultParams 0b00000001000010010101000000100101#32 = some (.or 10#5 8#5 9#5) ∧
    decodeWord defaultParams 0b00000001000010010101000000100110#32 = some (.xor 10#5 8#5 9#5) ∧
    decodeWord defaultParams 0b00000001000010010101000000100111#32 = some (.nor 10#5 8#5 9#5) ∧
    decodeWord defaultParams 0b00000001000010010101000000101010#32 = some (.slt 10#5 8#5 9#5) ∧
    decodeWord defaultParams 0b00000001000010010101000000101011#32 = some (.sltu 10#5 8#5 9#5) ∧
    decodeWord defaultParams 0b00000001000010010101000000011000#32 = some (.mul 10#5 8#5 9#5) := by decide

theorem test_decode_shifts_and_system :
    decodeWord defaultParams 0b00000000000010000100100100000000#32 = some (.sll 9#5 8#5 4#5) ∧
    decodeWord defaultParams 0b00000000000010000100100100000010#32 = some (.srl 9#5 8#5 4#5) ∧
    decodeWord defaultParams 0b00000000000010000100111111000011#32 = some (.sra 9#5 8#5 31#5) ∧
    decodeWord defaultParams 0b00000011111000000000000000001000#32 = some (.jr 31#5) ∧
    decodeWord defaultParams 0b00000000000000000000000000001100#32 = some .syscall ∧
    decodeWord defaultParams 0b00000000000000000000000000001101#32 = some .brk := by decide

theorem test_decode_immediates :
    decodeWord defaultParams 0b00100000000010000000000000000101#32 = some (.addi 8#5 0#5 5#16) ∧
    decodeWord defaultParams 0b00101001000010011111111111111111#32 = some (.slti 9#5 8#5 0xFFFF#16) ∧
    decodeWord defaultParams 0b00110001000010010000000011111111#32 = some (.andi 9#5 8#5 255#16) ∧
    decodeWord defaultParams 0b00110101000010010000000011111111#32 = some (.ori 9#5 8#5 255#16) ∧
    decodeWord defaultParams 0b00111001000010011111111111111111#32 = some (.xori 9#5 8#5 0xFFFF#16) ∧
    decodeWord defaultParams 0b10001110000010000000000000001000#32 = some (.lw 8#5 16#5 8#16) ∧
    decodeWord defaultParams 0b10101110000010100000000000001000#32 = some (.sw 10#5 16#5 8#16) := by decide

theorem test_decode_transfers :
    decodeWord defaultParams 0b00010001000010011111111111111110#32 = some (.beq 8#5 9#5 0xFFFE#16) ∧
    decodeWord defaultParams 0b00010101001000001111111111111101#32 = some (.bne 9#5 0#5 0xFFFD#16) ∧
    decodeWord defaultParams 0b00001000000100000000000000000101#32 = some (.j 0x0100005#26) ∧
    decodeWord defaultParams 0b00001100000100000000000000000011#32 = some (.jal 0x0100003#26) := by decide

/-- The words of the pseudo-instructions, which decode to their expansions (§2.1). -/
theorem test_pseudo_words :
    encode defaultParams (.move 9#5 8#5) = 0x01004820#32 ∧ encode defaultParams .nop = 0x00000000#32 ∧
    encode defaultParams (.li 8#5 0xFFFD#16) = 0x2008FFFD#32 ∧
    encode defaultParams (.la 8#5 0xFFFD#16) = 0x2008FFFD#32 ∧
    decodeTableWord 32 0x01004820 = some (.add 9#5 8#5 0#5) ∧ decodeTableWord 32 0 = some (.sll 0#5 0#5 0#5) ∧
    decodeTableWord 32 0x2008FFFD = some (.addi 8#5 0#5 0xFFFD#16) := by decide

/-- The decode-only vectors of §2.1. -/
theorem test_decode_only :
    decodeTableWord 32 0x01095160 = some (.add 10#5 8#5 9#5) ∧
    decodeTableWord 32 0x03E84900 = some (.sll 9#5 8#5 4#5) ∧
    decodeTableWord 32 0x03FFFFCC = some .syscall ∧
    decodeTableWord 32 0x3408FFFF = some (.ori 8#5 0#5 0xFFFF#16) ∧
    decodeTableWord 32 0xFFFFFFFF = none ∧ decodeTableWord 32 0x00000001 = none ∧
    decodeTableWord 32 0x00000021 = none ∧ decodeTableWord 32 0x3C081001 = none ∧
    decodeTableWord 32 0x24080005 = none ∧ decodeTableWord 32 0x71095002 = none := by decide

/-- Displayed targets (S3, S4, §2.6). -/
theorem test_displayed_targets :
    (decode defaultParams 0x1109FFFE#32 0x00400004#32).btarget = 0x00400000#32 ∧
    (decode defaultParams 0x08100005#32 0x90000008#32).jtarget = 0x00400014#32 ∧
    (decode defaultParams 0x08100005#32 0x00400000#32).shownOperands [("target", 0x00400014#32)] =
      [.label ["target"]] ∧
    (decode defaultParams 0x3909FFFF#32 0#32).shownOperands [] =
      [.register "$t1", .register "$t0", .immediate (-1)] := by decide

/-! ### Register-register (§2.2) -/

theorem test_add_wraps : result 0x01095020#32 [(8#5, 7#32), (9#5, 0xFFFFFFFE#32)] 10#5 =
    some (5#32, 0x00400004#32) := by decide
theorem test_add_same_register : result 0x01084020#32 [(8#5, 0x40000000#32)] 8#5 =
    some (0x80000000#32, 0x00400004#32) := by decide
theorem test_add_register_zero : result 0x01080020#32 [(8#5, 4#32)] 0#5 = some (0#32, 0x00400004#32) := by decide
theorem test_sub_order : result 0x02328022#32 [(17#5, 5#32), (18#5, 7#32)] 16#5 =
    some (0xFFFFFFFE#32, 0x00400004#32) := by decide
theorem test_and : result 0x01095024#32 [(8#5, 0xFFFF00FF#32), (9#5, 0x0F0F0F0F#32)] 10#5 =
    some (0x0F0F000F#32, 0x00400004#32) := by decide
theorem test_or : result 0x01095025#32 [(8#5, 0xFFFF00FF#32), (9#5, 0x0F0F0F0F#32)] 10#5 =
    some (0xFFFF0FFF#32, 0x00400004#32) := by decide
theorem test_xor : result 0x01095026#32 [(8#5, 0xFFFF00FF#32), (9#5, 0x0F0F0F0F#32)] 10#5 =
    some (0xF0F00FF0#32, 0x00400004#32) := by decide
theorem test_nor : result 0x01095027#32 [(8#5, 0xFFFF00FF#32), (9#5, 0x0F0F0F0F#32)] 10#5 =
    some (0x0000F000#32, 0x00400004#32) := by decide
theorem test_slt_signed : result 0x0109502A#32 [(8#5, 0x80000000#32), (9#5, 0x7FFFFFFF#32)] 10#5 =
    some (1#32, 0x00400004#32) := by decide
theorem test_slt_equal : result 0x0109502A#32 [(8#5, 5#32), (9#5, 5#32)] 10#5 =
    some (0#32, 0x00400004#32) := by decide
theorem test_sltu_unsigned : result 0x0109502B#32 [(8#5, 0x7FFFFFFF#32), (9#5, 0x80000000#32)] 10#5 =
    some (1#32, 0x00400004#32) := by decide
theorem test_mul_low_half : result 0x01095018#32 [(8#5, 0x7FFFFFFF#32), (9#5, 2#32)] 10#5 =
    some (0xFFFFFFFE#32, 0x00400004#32) := by decide

/-! ### Shifts (§2.3) -/

theorem test_sll : result 0x00084900#32 [(8#5, 0x0000000F#32)] 9#5 = some (0x000000F0#32, 0x00400004#32) := by
  decide
theorem test_srl : result 0x00084902#32 [(8#5, 0xF00000F0#32)] 9#5 = some (0x0F00000F#32, 0x00400004#32) := by
  decide
theorem test_sra_negative : result 0x00084FC3#32 [(8#5, 0x80000000#32)] 9#5 =
    some (0xFFFFFFFF#32, 0x00400004#32) := by decide
theorem test_sra_positive : result 0x00084FC3#32 [(8#5, 0x7FFFFFFF#32)] 9#5 =
    some (0#32, 0x00400004#32) := by decide

/-! ### Immediates (§2.5) -/

theorem test_addi_negative : result 0x2129FFFF#32 [(9#5, 1#32)] 9#5 = some (0#32, 0x00400004#32) := by decide
theorem test_slti : result 0x2912FFF9#32 [(8#5, 0xFFFFFFF8#32)] 18#5 = some (1#32, 0x00400004#32) := by decide
theorem test_andi_zero_extends : result 0x310DFFFF#32 [(8#5, 0xFFFFFFF8#32)] 13#5 =
    some (0x0000FFF8#32, 0x00400004#32) := by decide
theorem test_ori_zero_extends : result 0x3408FFFF#32 [] 8#5 = some (0x0000FFFF#32, 0x00400004#32) := by decide
theorem test_xori_zero_extends : result 0x3911FFFF#32 [(8#5, 0xFFFFFFF8#32)] 17#5 =
    some (0xFFFF0007#32, 0x00400004#32) := by decide

/-! ### Loads and stores (§2.4) -/

theorem test_lw_present :
    seen (atBase 0x8E080008#32 [(16#5, 0x10010000#32)] [(0x10010008#32, 0x1E#32)]) (·.readReg 8#5) = some 0x1E#32 := by
  decide

/-- The neighbour of a present key is absent and reads zero (R44), and stays absent (R42). -/
theorem test_lw_absent :
    seen (atBase 0x8E080001#32 [(16#5, 0x10010000#32)] [(0x10010000#32, 0xAABBCCDD#32)])
      (fun t => (t.readReg 8#5, t.memPresent 0x10010001#32)) = some (0#32, false) := by decide

/-- `sw $t1, 2($s0)` beside a present cell. -/
theorem test_sw_exact_key :
    seen (atBase 0xAE090002#32 [(16#5, 0x10010000#32), (9#5, 0x11111111#32)] [(0x10010000#32, 0xAABBCCDD#32)])
      (fun t => (t.memRead 0x10010002#32, t.memRead 0x10010000#32)) = some (0x11111111#32, 0xAABBCCDD#32) := by decide

/-- `sw $t0, -4($sp)` at the top of the address space. -/
theorem test_sw_wraps :
    seen (atBase 0xAFA8FFFC#32 [(8#5, 7#32)] []) (fun t => Mem.lookup t.mem 0xFFFFFFFC) = some (some 7#32) := by
  decide

/-! ### Control transfer (§2.6) -/

theorem test_beq_taken :
    pcAfter 0x1109FFFE#32 0x00400004#32 [(8#5, 3#32), (9#5, 3#32)] = some 0x00400000#32 := by decide
theorem test_beq_not_taken :
    pcAfter 0x1109FFFE#32 0x00400004#32 [(8#5, 3#32), (9#5, 4#32)] = some 0x00400008#32 := by decide
theorem test_bne_taken : pcAfter 0x1520FFFD#32 0x00400010#32 [(9#5, 4#32)] = some 0x00400008#32 := by decide
theorem test_bne_not_taken : pcAfter 0x1520FFFD#32 0x00400010#32 [(9#5, 0#32)] = some 0x00400014#32 := by decide
/-- The two ends of the field. -/
theorem test_branch_ends :
    pcAfter 0x11007FFF#32 0x00400000#32 [] = some 0x00420000#32 ∧
    pcAfter 0x11008000#32 0x00400000#32 [] = some 0x003E0004#32 := by decide
theorem test_j_region : pcAfter 0x08100005#32 0x90000008#32 [] = some 0x90400014#32 := by decide
theorem test_jal : result 0x0C100003#32 [] 31#5 = some (0x00400004#32, 0x0040000C#32) := by decide
theorem test_jr_misaligned : pcAfter 0x03E00008#32 0x00400010#32 [(31#5, 0x00400006#32)] = some 0x00400006#32 := by
  decide

/-! ### System instructions, unrecognized words, halting (§2.7), reset (§2.8) -/

theorem test_syscall :
    control defaultParams 0x0000000C#32 0x00400020#32 = some (.running, 0x00400024#32) ∧
    control haltParams 0x0000000C#32 0x00400020#32 = some (.halted, 0x00400020#32) := by decide
theorem test_break :
    control defaultParams 0x0000000D#32 0x00400000#32 = some (.running, 0x00400004#32) ∧
    control haltParams 0x0000000D#32 0x00400000#32 = some (.halted, 0x00400000#32) := by decide
theorem test_unrecognized :
    control defaultParams 0xFFFFFFFF#32 0x00400018#32 = some (.running, 0x0040001C#32) ∧
    control haltParams 0xFFFFFFFF#32 0x00400018#32 = some (.halted, 0x00400018#32) := by decide
theorem test_unrecognized_trace :
    (traceElement (atBase 0xFFFFFFFF#32 [] [])).map (fun e => (e.address, e.decoded.kind.mnemonic)) =
      some (0x00400000#32, "unrecognized instruction") := by decide
theorem test_nop : result 0#32 [(8#5, 7#32)] 8#5 = some (7#32, 0x00400004#32) := by decide
theorem test_register_zero_soft :
    seen (machine softParams 0x00400000#32 [(8#5, 4#32)] [(0x00400000#32, 0x01080020#32)]) (·.readReg 0#5) =
      some 8#32 := by decide

theorem test_reset_halts_at_once :
    seen State.reset id = some { State.reset with runState := .halted } ∧
    traceElement State.reset = none ∧
    ({ State.reset with runState := .halted } : State).runClass = .finished 0x00400000#32 := by decide
theorem test_fetch_word_runs :
    seen (State.reset.withFetchWord 32 0x20080005) (fun t => (t.readReg 8#5, t.pc, t.runState)) =
      some (5#32, 0x00400004#32, .running) := by decide
/-- The model's choice (log 27): at a key that both regions claim the data word stands. -/
theorem test_data_over_text :
    (State.reset.loadImage [1#32, 2#32] [(0x00400004#32, 9#32)]).mem = [(0x00400000, 1#32), (0x00400004, 9#32)] := by
  decide

/-- The model's choice (log 30): a core that is still Running after a step may be reset. -/
theorem test_reset_while_running :
    ((Session.mk (atBase 0#32 [] []) .loading).apply .step).bind (fun x => (x.apply .reset).map fun y =>
      (x.core.runState, y)) = some (.running, Session.mk State.reset .loading) := by decide

/-- After the host's last move a step is possible and a load is not. -/
theorem test_session :
    ((Session.mk State.reset .loading).apply .step).map (fun x => (x.phase, x.apply (.load 0#32 0#32))) =
      some (.stepping, none) := by decide

/-! ### The pseudo-instructions as meanings (R96 to R99) -/

/-- What `exec` answers, seen through `f`. -/
def execSeen {α : Type} (i : Instr) (s : State) (f : State → α) : Option α :=
  match exec i s with
  | .next t => some (f t)
  | .fault _ => none
  | .refused _ => none

theorem test_move : execSeen (.move 9#5 8#5) (atBase 0#32 [(8#5, 6#32)] []) (fun t => (t.readReg 9#5, t.pc)) =
    some (6#32, 0x00400004#32) := by decide
theorem test_nop_meaning : execSeen .nop State.reset id = some { State.reset with pc := 0x00400004#32 } := by decide
theorem test_li : execSeen (.li 8#5 0xFFFD#16) State.reset (·.readReg 8#5) = some 0xFFFFFFFD#32 := by decide
theorem test_la : execSeen (.la 8#5 0x7FFF#16) State.reset (·.readReg 8#5) = some 0x00007FFF#32 := by decide

/-! ### The assembler -/

open Asm

/-- What source lines assemble to: the words, or the first refusal. -/
def words (lines : List String) : Except AsmError (List Word) :=
  match readLines .none (lines.map String.toList) with
  | .error e => .error e
  | .ok src =>
    match assembleSource defaultParams none src with
    | .error e => .error e
    | .ok prog => .ok prog.words

/-- The data cells and data symbols of source lines. -/
def dataOf (lines : List String) : Except AsmError (List (Word × Word) × SymTable) :=
  match readLines .none (lines.map String.toList) with
  | .error e => .error e
  | .ok src => .ok (dataCells 0x10010000#32 src.data, dataSymbols 0x10010000#32 src.data)

/-- The error of one text line, if any. -/
def lineError (line : String) : Option AsmError :=
  match words [".text", line] with
  | .error e => some e
  | .ok _ => none

def isOk {α : Type} [DecidableEq α] (x : Except AsmError α) (a : α) : Bool :=
  match x with
  | .error _ => false
  | .ok b => decide (b = a)

/-- S1, with R101's line of 32 characters. -/
theorem test_source_s1 : isOk (words [".text", "addi $t0, $zero, 5"]) [0x20080005#32] = true ∧
    String.ofList (bitString 0x20080005#32) = "00100000000010000000000000000101" := by decide

/-- S2. -/
theorem test_source_s2 : isOk (dataOf [".data", "num: .word 10, 20"])
    ([(0x10010000#32, 10#32), (0x10010004#32, 20#32)], [("num", 0x10010000#32)]) = true := by decide

/-- S3. -/
theorem test_source_s3 :
    isOk (words [".text", "loop:", "addi $t0, $t0, 1", "  beq $t0, $t1, loop  # back"])
      [0x21080001#32, 0x1109FFFE#32] = true := by decide

/-- P3's `jal`, `j` and `jr`, and §2.1's loads and stores. -/
theorem test_source_p3 :
    isOk (words [".text", "jal func", "lw $t0, -4($sp)", "j end", "func:", "sw $t2, 8($s0)", "jr $ra", "end:"])
      [0x0C100003#32, 0x8FA8FFFC#32, 0x08100005#32, 0xAE0A0008#32, 0x03E00008#32] = true := by decide

/-- The model's choice (log 29): blanks before a colon, around a comma and at the parentheses. -/
theorem test_source_blanks :
    isOk (words [".text", "loop :", "  lw  $t0 , -4 ( $sp )", "beq $t0,$t1, loop"])
      [0x8FA8FFFC#32, 0x1109FFFE#32] = true := by decide

/-- The model's choice (log 31): labels alone on their lines, and an `.asciiz` without a label. -/
theorem test_data_labels_alone :
    isOk (dataOf [".data", "a:", "b:", ".asciiz \"H\"", "end:"])
      ([(0x10010000#32, 0x48#32), (0x10010001#32, 0#32)],
        [("a", 0x10010000#32), ("b", 0x10010000#32), ("end", 0x10010002#32)]) = true := by decide

/-- P6: no padding before a word that follows a string. -/
theorem test_data_layout_p6 :
    dataCells 0x10010000#32 [.label "msg", .asciiz [0x48#32, 0x69#32], .label "val", .word [7#32]] =
      [(0x10010000#32, 0x48#32), (0x10010001#32, 0x69#32), (0x10010002#32, 0#32), (0x10010003#32, 7#32)] ∧
    dataSymbols 0x10010000#32 [.label "msg", .asciiz [0x48#32, 0x69#32], .label "val", .word [7#32]] =
      [("msg", 0x10010000#32), ("val", 0x10010003#32)] := by decide

/-- The refusals of §2.1. -/
theorem test_source_refusals :
    lineError "addi $t0, $zero, 32768" = some .literalOutOfRange ∧
    lineError "addi $t0, $zero, 0x10" = some .malformedInteger ∧
    lineError "sll $t0, $t0, 32" = some .shamtOutOfRange ∧
    lineError "li $t0, 65536" = some .literalOutOfRange ∧
    lineError "add $t0, $t1, $8" = some .unknownRegister ∧
    lineError "beq $t0, $t1, nowhere" = some (.undefinedLabel "nowhere") ∧
    lineError "lui $t0, 1" = some .unknownMnemonic := by decide

/-- The refusals of §2.1 that need a data label. -/
theorem test_source_refusals_of_labels :
    (match words [".data", "num: .word 1", ".text", "lw $t0, num"] with
      | .error e => decide (e = .labelImmOpen) | .ok _ => false) = true ∧
    (match words [".data", "num: .word 1", ".text", "j num"] with
      | .error e => decide (e = .undefinedLabel "num") | .ok _ => false) = true ∧
    (match words [".data", "num: .word 1, x"] with
      | .error e => decide (e = .malformedInteger) | .ok _ => false) = true := by decide

/-! ### Witnesses: the hypotheses of the obligations can be met, clause by clause, also where clauses meet -/

/-- DecodeInvertsEncode, MulWritesLowProduct, RTypeDecodeIgnoresZeroedFields: admissible parameters, two of them,
and both values of `Instr.wf`. -/
theorem witness_admissible_params :
    defaultParams.wf = true ∧ otherParams.wf = true ∧ Instr.wf (.mul 10#5 8#5 9#5) = true ∧
    Instr.wf (.move 9#5 8#5) = false ∧ Instr.expand (.move 9#5 8#5) = .add 9#5 8#5 0#5 := by decide

/-- EncodeInvertsDecode, DecoderGivesMachineInstructions: a word with its zeroed fields clear, and one without. -/
theorem witness_encode_inverts_decode :
    (decode defaultParams 0x01095020#32 0#32).toInstr = some (.add 10#5 8#5 9#5) ∧
    shamtOf 0x01095020#32 = 0#5 ∧
    (decode defaultParams 0x01095160#32 0#32).toInstr = some (.add 10#5 8#5 9#5) ∧
    shamtOf 0x01095160#32 ≠ 0#5 ∧ encode defaultParams (.add 10#5 8#5 9#5) ≠ 0x01095160#32 := by decide

/-- UnrecognizedWordsExactly: each clause, and words beside each. -/
theorem witness_unrecognized_words :
    (decode defaultParams 0x00000001#32 0#32).kind = .unrecognized ∧
    (decode defaultParams 0x0000003F#32 0#32).kind = .unrecognized ∧
    (decode defaultParams 0x04000000#32 0#32).kind = .unrecognized ∧
    (decode defaultParams 0xFFFFFFFF#32 0#32).kind = .unrecognized ∧
    (decode defaultParams 0x00000000#32 0#32).kind = .sll ∧
    (decode defaultParams 0x00000018#32 0#32).kind = .mul ∧
    (decode defaultParams 0xAC000000#32 0#32).kind = .sw := by decide

/-- The clauses of OnlyRegWritten, in every result statement: an ordinary register, register 31, a hard-wired
register 0, and a register 0 that is not. -/
theorem witness_hard_zero :
    State.reset.isHardZero 8#5 = false ∧ State.reset.isHardZero 31#5 = false ∧ State.reset.isHardZero 0#5 = true ∧
    (State.resetWith softParams).isHardZero 0#5 = false := by decide

/-- EffectiveAddressWraps: both ends of the two windows around the edges of the address space. -/
theorem witness_effective_address :
    State.reset.params.zeroRegHardwired = true ∧ State.reset.effectiveAddress 0#5 0x7FFF#16 = 0x00007FFF#32 ∧
    State.reset.effectiveAddress 0#5 0x8000#16 = 0xFFFF8000#32 ∧
    State.reset.effectiveAddress 0#5 0xFFFF#16 = 0xFFFFFFFF#32 := by decide

/-- LwReadsExactKey: a present and an absent key; SwWritesExactKey: a store to `pc + 4` (P5). -/
theorem witness_load_store :
    Mem.lookup (State.reset.memWrite 4#32 9#32).mem (State.reset.effectiveAddress 0#5 4#16).toNat = some 9#32 ∧
    Mem.lookup State.reset.mem (State.reset.effectiveAddress 0#5 4#16).toNat = none ∧
    (machine defaultParams 0x00400014#32 [(16#5, 0x00400000#32)] []).effectiveAddress 16#5 24#16 =
      0x00400014#32 + 4#32 := by decide

/-- BeqBranchesOnEqual, BneBranchesOnDifferent: equal registers and different ones. -/
theorem witness_branches :
    State.reset.readReg 8#5 = State.reset.readReg 9#5 ∧
    (State.reset.writeReg 8#5 1#32).readReg 8#5 ≠ (State.reset.writeReg 8#5 1#32).readReg 9#5 := by decide

/-- SystemInstructionsFollowPolicy: both policies. -/
theorem witness_system_policy :
    State.reset.params.systemPolicy = .nop ∧ (State.resetWith haltParams).params.systemPolicy = .halt := by decide

/-- UnrecognizedWordsFollowPolicy, PcIsAdvancedOrRedirectedOnce, HaltedIsEnteredInExactlyThreeWays (b): a fetched
unrecognized word under both policies. -/
theorem witness_unrecognized_policy :
    (atBase 0xFFFFFFFF#32 [] []).runState = .running ∧
    Mem.lookup (atBase 0xFFFFFFFF#32 [] []).mem (atBase 0xFFFFFFFF#32 [] []).pc.toNat = some 0xFFFFFFFF#32 ∧
    (decode defaultParams 0xFFFFFFFF#32 0x00400000#32).kind = .unrecognized ∧
    (atBase 0xFFFFFFFF#32 [] []).params.unrecognizedPolicy = .nop ∧
    control haltParams 0xFFFFFFFF#32 0x00400000#32 = some (.halted, 0x00400000#32) := by decide

/-- MoveCopiesRegister, LiAndLaLoadSignedConstant: register 0 reads zero, hard-wired or not. -/
theorem witness_register_zero_reads_zero :
    State.reset.readReg 0#5 = 0#32 ∧ (State.resetWith softParams).readReg 0#5 = 0#32 := by decide

/-- StepRunsTheDecodedInstruction, FetchUsesTheExactKey (present), TraceShowsExecutedSteps,
OnlySourcesReadOnlyDestinationWritten: a fetched `addi`, which executes. -/
theorem witness_fetched_word :
    (atBase 0x20080005#32 [] []).runState = .running ∧
    Mem.lookup (atBase 0x20080005#32 [] []).mem (atBase 0x20080005#32 [] []).pc.toNat = some 0x20080005#32 ∧
    (decode defaultParams 0x20080005#32 0x00400000#32).toInstr = some (.addi 8#5 0#5 5#16) ∧
    ((traceElement (atBase 0x20080005#32 [] [])).map fun e => e.regs[8]) = some 5#32 := by decide

/-- FetchUsesTheExactKey (absent, also beside a present key), StepIsTotalAndHaltsAreClassed,
HaltedIsEnteredInExactlyThreeWays (a), TraceShowsExecutedSteps (none). -/
theorem witness_absent_fetch :
    Mem.lookup (machine defaultParams 0x00400001#32 [] [(0x00400000#32, 0#32)]).mem 0x00400001 = none ∧
    seen (machine defaultParams 0x00400001#32 [] [(0x00400000#32, 0#32)]) (fun t => (t.runState, t.runClass)) =
      some (.halted, .finished 0x00400001#32) := by decide

/-- StepIsTotalAndHaltsAreClassed, HaltedIsEnteredInExactlyThreeWays (c): a policy halt and its class; and a
halted machine, which steps to itself. -/
theorem witness_policy_halt :
    seen (machine haltParams 0#32 [] [(0#32, 0x0000000D#32)]) (fun t => (t.runState, t.runClass)) =
      some (.halted, .stoppedByPolicy 0x0000000D#32) ∧
    seen { State.reset with runState := .halted } id = some { State.reset with runState := .halted } := by decide

/-- OnlySourcesReadOnlyDestinationWritten: two states that agree on the sources of `add $t2, $t0, $t1` and differ
elsewhere. -/
theorem witness_agreeing_states :
    (∀ q ∈ sourcesOf (.add 10#5 8#5 9#5), State.reset.readReg q = (State.reset.writeReg 10#5 7#32).readReg q) ∧
    State.reset.readReg 10#5 ≠ (State.reset.writeReg 10#5 7#32).readReg 10#5 ∧
    destOf (.add 10#5 8#5 9#5) = some 10#5 := by decide

/-- StepKeepsTheInvariant: a state that satisfies it and one that does not; a step from the first. -/
theorem witness_invariant :
    State.reset.Inv ∧ (atBase 0xAFA8FFFC#32 [(8#5, 7#32)] []).Inv ∧
    ¬ State.Inv { State.reset with mem := [(4, 0#32), (4, 1#32)] } ∧
    ¬ State.Inv { State.reset with regs := State.reset.regs.set 0 1#32 } ∧
    (seen (atBase 0xAFA8FFFC#32 [(8#5, 7#32)] []) (·.mem.wf)) = some true := by
  unfold State.Inv
  decide

/-- OnlyJrMisalignsThePc: an aligned pc with a fetched word that is no `jr`. -/
theorem witness_aligned_pc :
    (atBase 0x08100005#32 [] []).pcAligned ∧
    (decode defaultParams 0x08100005#32 0x00400000#32).kind ≠ .jr ∧
    seen (atBase 0x08100005#32 [] []) (fun t => t.pc.toNat % 4) = some 0 := by
  unfold State.pcAligned
  decide

/-- CellsAreNeverRemoved, OnlySwWritesMemory: a present key kept by a step that stores elsewhere. -/
theorem witness_cells_kept :
    (Mem.lookup (atBase 0xAFA8FFFC#32 [] []).mem 0x00400000).isSome = true ∧
    seen (atBase 0xAFA8FFFC#32 [] []) (fun t => (Mem.lookup t.mem 0x00400000).isSome) = some true := by decide

/-- PresenceIsSeenByFetchAlone: an absent key at the pc of a running machine. -/
theorem witness_absent_key_at_pc :
    Mem.lookup State.reset.mem (0x00400000#32 : Word).toNat = none ∧ State.reset.runState = .running ∧
    State.reset.pc = 0x00400000#32 ∧
    seen (State.reset.memWrite 0x00400000#32 0#32) (fun t => (t.runState, t.pc)) =
      some (.running, 0x00400004#32) := by decide

/-- HostLoadsOnlyBeforeTheFirstStep: a halted core. -/
theorem witness_halted_session :
    (Session.mk { State.reset with runState := .halted } .stepping).core.runState = .halted := by decide

/-- LoadedTextStandsAtItsKeys: a program that ends exactly at the top of the address space, its words found. -/
theorem witness_loaded_text :
    (0xFFFFFFF8#32 : Word).toNat + 4 * [1#32, 2#32].length ≤ 2 ^ 32 ∧ [(1#32 : Word), 2#32][1]? = some 2#32 ∧
    Mem.lookup ((State.resetWith { defaultParams with textBase := 0xFFFFFFF8#32 }).loadWordsAt 0xFFFFFFF8#32
      [1#32, 2#32]).mem 0xFFFFFFFC = some 2#32 ∧
    Mem.lookup ((State.resetWith { defaultParams with textBase := 0xFFFFFFF8#32 }).loadWordsAt 0xFFFFFFF8#32
      [1#32, 2#32]).mem 0xFFFFFFFD = none := by decide

/-- AssembledBranchLandsOnItsLabel: both clauses at the ends of the reach; the registers as `witness_branches`. -/
theorem witness_assembled_branch :
    branchReaches 0x00400000#32 0x00420000#32 = true ∧ branchReaches 0x00400000#32 0x00420004#32 = false ∧
    isOk (branchImm 0x00400000#32 0x00420000#32) 0x7FFF#16 = true ∧
    isOk (branchImm 0x00400000#32 0x003E0004#32) 0x8000#16 = true := by decide

/-- AssembledJumpLandsOnItsLabel: both clauses at the edge of a region; a target below `2^28`. -/
theorem witness_assembled_jump :
    jumpReaches 0x00400000#32 0x0FFFFFFC#32 = true ∧ jumpReaches 0x00400000#32 0x10000000#32 = false ∧
    (0x0FFFFFFC#32 : Word).toNat < 2 ^ 28 ∧ isOk (jumpField 0x00400000#32 0x00400014#32) 0x0100005#26 = true := by
  decide

/-- TextLayoutIsFourPerLine: lines that assemble (S3). -/
theorem witness_text_layout :
    isOk (encodeLines defaultParams none ⟨[("loop", 0x00400000#32)], [], 0#32⟩ 0x00400000#32
      [.plain (.addi 8#5 8#5 1#16), .beq 8#5 9#5 "loop"]) [0x21080001#32, 0x1109FFFE#32] = true ∧
    textSymbols 0x00400000#32 0 [.label "loop", .instr (.plain .nop), .label "end"] =
      [("loop", 0x00400000#32), ("end", 0x00400004#32)] := by decide

/-- DataLayoutIsContiguous: a value at its place in a list. -/
theorem witness_data_layout :
    [(10#32 : Word), 20#32][1]? = some 20#32 ∧
    ((DataItem.word [10#32, 20#32]).cells 0x10010000#32)[1]? = some (0x10010004#32, 20#32) := by decide

end Sys2Proof.Tests
end

section
/-! The step by the case it takes, its totality, and the host's moves on a session (R7, R31, R35). -/

namespace Sys2Proof.Machine

/-! ### The step, one equation per case -/

theorem step_of_halted {s : State} (hr : s.runState = .halted) : step s = .next s := by
  simp [step, hr]

theorem step_of_absent {s : State} (hr : s.runState = .running) (hf : s.fetch = none) :
    step s = .next s.halt := by
  simp [step, hr, hf]

theorem step_of_instr {s : State} {w : Word} {i : Instr} (hr : s.runState = .running) (hf : s.fetch = some w)
    (hi : (decode s.params w s.pc).toInstr = some i) : step s = exec i s := by
  simp [step, hr, hf, hi]

theorem step_of_unrecognized {s : State} {w : Word} (hr : s.runState = .running) (hf : s.fetch = some w)
    (hi : (decode s.params w s.pc).toInstr = none) : step s = execUnrecognized s := by
  simp [step, hr, hf, hi]

/-- The step is total (R184). -/
theorem exists_step_eq_next (s : State) : ∃ t, step s = .next t := by
  cases hr : s.runState with
  | halted => exact ⟨s, step_of_halted hr⟩
  | running =>
    cases hf : s.fetch with
    | none => exact ⟨s.halt, step_of_absent hr hf⟩
    | some w =>
      cases hi : (decode s.params w s.pc).toInstr with
      | some i =>
        obtain ⟨t, ht, -⟩ := exec_effect i s
        exact ⟨t, (step_of_instr hr hf hi).trans ht⟩
      | none =>
        obtain ⟨t, ht, -⟩ := effect_underPolicy s s.params.unrecognizedPolicy
        exact ⟨t, (step_of_unrecognized hr hf hi).trans ht⟩

/-! ### A session, one equation per move of the host -/

theorem apply_reset (x : Session) : x.apply .reset = some ⟨State.resetWith x.core.params, .loading⟩ := rfl

theorem apply_load_of_loading (s : State) (a w : Word) :
    (Session.mk s .loading).apply (.load a w) = some ⟨s.memWrite a w, .loading⟩ := rfl

theorem apply_load_of_stepping (s : State) (a w : Word) :
    (Session.mk s .stepping).apply (.load a w) = none := rfl

theorem apply_step_of_next {x : Session} {t : State} (h : step x.core = .next t) :
    x.apply .step = some ⟨t, .stepping⟩ := by
  simp [Session.apply, h]

/-- Settles O53: the step is total and ends in the phase without loads; after reset a load is one `memWrite`; a
halted core steps to itself. -/
theorem hostLoadsOnlyBeforeTheFirstStep : Obligations.HostLoadsOnlyBeforeTheFirstStep := by
  intro x a w
  refine ⟨?step, ?reset, ?halted⟩
  case step =>
    obtain ⟨t, ht⟩ := exists_step_eq_next x.core
    exact ⟨⟨t, .stepping⟩, apply_step_of_next ht, rfl, ht, apply_load_of_stepping t a w⟩
  case reset =>
    refine ⟨_, apply_reset x, rfl, rfl, _, apply_load_of_loading _ a w, rfl, ?_⟩
    exact ⟨onlyKeyWritten_memWrite _ a w, readReg_memWrite _ a w, memWrite_pc _ a w,
      memWrite_runState _ a w, memWrite_params _ a w⟩
  case halted =>
    intro hr
    exact ⟨⟨x.core, .stepping⟩, apply_step_of_next (step_of_halted hr), rfl⟩

end Sys2Proof.Machine
end

section
/-! What an instruction and a step do to the pc and the run state (R26, R28): every instruction goes to its `nextPc`
or halts by policy, and a step halts for one of R28's three causes. -/

namespace Sys2Proof

/-! ### The kind of an instruction -/

/-- The kind the decoder shows for the word of an instruction (R71); a pseudo-instruction's is that of its expansion
(R75). -/
def Instr.kind : Instr → Kind
  | .add _ _ _ | .move _ _ => .add
  | .sub _ _ _ => .sub
  | .and _ _ _ => .and
  | .or _ _ _ => .or
  | .xor _ _ _ => .xor
  | .nor _ _ _ => .nor
  | .slt _ _ _ => .slt
  | .sltu _ _ _ => .sltu
  | .mul _ _ _ => .mul
  | .sll _ _ _ | .nop => .sll
  | .srl _ _ _ => .srl
  | .sra _ _ _ => .sra
  | .jr _ => .jr
  | .syscall => .syscall
  | .brk => .brk
  | .addi _ _ _ | .li _ _ | .la _ _ => .addi
  | .slti _ _ _ => .slti
  | .andi _ _ _ => .andi
  | .ori _ _ _ => .ori
  | .xori _ _ _ => .xori
  | .lw _ _ _ => .lw
  | .sw _ _ _ => .sw
  | .beq _ _ _ => .beq
  | .bne _ _ _ => .bne
  | .j _ => .j
  | .jal _ => .jal

theorem kind_ne_unrecognized (i : Instr) : i.kind ≠ .unrecognized := by
  cases i <;> simp [Instr.kind]

theorem kind_of_toInstr {d : Decoded} {i : Instr} (h : d.toInstr = some i) : d.kind = i.kind := by
  unfold Decoded.toInstr at h
  split at h <;> cases h <;> assumption

/-- A word is no instruction exactly when its kind is unrecognized (R74). -/
theorem toInstr_eq_none_iff (d : Decoded) : d.toInstr = none ↔ d.kind = .unrecognized := by
  constructor
  · intro h
    unfold Decoded.toInstr at h
    split at h <;> cases h
    assumption
  · intro h
    simp [Decoded.toInstr, h]

end Sys2Proof

namespace Sys2Proof.Machine

/-! ### The pc of the next instruction -/

/-- `pc + 4` is the exact sum, wrapped (R26, R27). -/
theorem add_four_eq_ofNat (x : Word) : x + 4#32 = BitVec.ofNat 32 (x.toNat + 4) := by
  simp [BitVec.ofNat_add]

theorem add_four_eq_ofInt (x : Word) : x + 4#32 = BitVec.ofInt 32 (x.toNat + 4) := by
  rw [add_four_eq_ofNat, ← BitVec.ofInt_natCast, Int.natCast_add]
  rfl

/-- The branch target is the exact sum of R67, wrapped. -/
theorem branchTarget_eq_ofInt (x : Word) (v : Imm16) :
    branchTarget x v = BitVec.ofInt 32 (x.toNat + 4 + 4 * v.toInt) := by
  have hshift : sext32 v <<< 2 = BitVec.ofInt 32 (4 * v.toInt) := by
    rw [BitVec.ofInt_mul, ← sext32_eq_ofInt, BitVec.shiftLeft_eq_mul_twoPow, BitVec.mul_comm]
    rfl
  rw [branchTarget, hshift, add_four_eq_ofInt, ← BitVec.ofInt_add]

/-- Masking and or-ing is concatenation: region bits, address field, two zeros (R68, R153). -/
theorem jumpTarget_eq_append (x : Word) (t : Addr26) :
    jumpTarget x t = x.extractLsb' 28 4 ++ t ++ 0#2 := by
  have hmask : ∀ k < 32, (0xF0000000#32).getLsbD k = decide (28 ≤ k) := by decide
  apply BitVec.eq_of_getLsbD_eq
  intro k hk
  simp only [jumpTarget, wordAddress, BitVec.getLsbD_or, BitVec.getLsbD_and, hmask k hk, BitVec.getLsbD_shiftLeft,
    BitVec.getLsbD_setWidth, BitVec.getLsbD_append, BitVec.getLsbD_extractLsb', BitVec.getLsbD_zero]
  by_cases h2 : k < 2
  · have h28 : ¬ 28 ≤ k := by omega
    simp [h2, h28]
  · by_cases h28 : 28 ≤ k
    · have hlow : t.getLsbD (k - 2) = false := BitVec.getLsbD_of_ge t _ (by omega)
      have hfield : ¬ k - 2 < 26 := by omega
      have hcell : k - 2 - 26 < 4 := by omega
      have hsum : 28 + (k - 2 - 26) = k := by omega
      simp [h2, h28, hlow, hfield, hcell, hsum]
    · have hlow : k - 2 < 26 := by omega
      have hcell : k - 2 < 32 := by omega
      simp [h2, h28, hk, hlow, hcell]

/-! ### What each instruction does to the pc and the run state -/

/-- `i` is `syscall` or `break` under the policy halt (R160, R161). -/
def HaltsByPolicy (i : Instr) (s : State) : Prop :=
  (i.kind = .syscall ∨ i.kind = .brk) ∧ s.params.systemPolicy = .halt

/-- An instruction halts by policy and changes nothing else, or goes to its `nextPc` in the same run state. -/
theorem exec_cases {i : Instr} {s t : State} (h : exec i s = .next t) :
    (HaltsByPolicy i s ∧ t = s.halt) ∨
    (¬ HaltsByPolicy i s ∧ t.runState = s.runState ∧ t.pc = nextPc i s) := by
  cases i with
  | add | sub | and | or | xor | nor | slt | sltu | mul | sll | srl | sra | addi | slti | andi | ori | xori | lw
  | sw | move | nop | li | la =>
    obtain rfl := Host.Outcome.next.inj h
    refine .inr ⟨by simp [HaltsByPolicy, Instr.kind], by simp, ?_⟩
    simp [nextPc, add_four_eq_ofNat]
  | j | jal =>
    obtain rfl := Host.Outcome.next.inj h
    exact .inr ⟨by simp [HaltsByPolicy, Instr.kind], by simp, jumpTarget_eq_append _ _⟩
  | jr =>
    obtain rfl := Host.Outcome.next.inj h
    exact .inr ⟨by simp [HaltsByPolicy, Instr.kind], rfl, rfl⟩
  | beq rs rt imm | bne rs rt imm =>
    obtain rfl := Host.Outcome.next.inj ((branchIf_eq ..).symm.trans h)
    refine .inr ⟨by simp [HaltsByPolicy, Instr.kind], rfl, ?_⟩
    by_cases heq : s.readReg rs = s.readReg rt <;>
      simp [nextPc, heq, State.branchTarget, branchTarget_eq_ofInt, add_four_eq_ofInt]
  | syscall | brk =>
    obtain ⟨hp, hu⟩ | ⟨hp, hu⟩ := underPolicy_cases s s.params.systemPolicy
    · obtain rfl := Host.Outcome.next.inj (hu.symm.trans h)
      exact .inr ⟨by simp [HaltsByPolicy, hp], rfl, add_four_eq_ofNat _⟩
    · obtain rfl := Host.Outcome.next.inj (hu.symm.trans h)
      exact .inl ⟨⟨by decide, hp⟩, rfl⟩

/-- An unrecognized word halts by policy, or only advances the pc (R162). -/
theorem execUnrecognized_cases {s t : State} (h : execUnrecognized s = .next t) :
    (s.params.unrecognizedPolicy = .halt ∧ t = s.halt) ∨ (s.params.unrecognizedPolicy = .nop ∧ t = s.advance) := by
  obtain ⟨hp, hu⟩ | ⟨hp, hu⟩ := underPolicy_cases s s.params.unrecognizedPolicy
  · exact .inr ⟨hp, (Host.Outcome.next.inj (hu.symm.trans h)).symm⟩
  · exact .inl ⟨hp, (Host.Outcome.next.inj (hu.symm.trans h)).symm⟩

/-! ### The three ways into Halted -/

/-- The causes of R28 for a running machine to halt: (a) an absent key at the pc, (b) an unrecognized word and (c) a
system instruction, each under its policy. -/
def State.HaltCause (s : State) : Prop :=
  s.fetch = none ∨
  (∃ w, s.fetch = some w ∧ (decode s.params w s.pc).kind = .unrecognized ∧ s.params.unrecognizedPolicy = .halt) ∨
  (∃ w, s.fetch = some w ∧ ((decode s.params w s.pc).kind = .syscall ∨ (decode s.params w s.pc).kind = .brk) ∧
    s.params.systemPolicy = .halt)

theorem haltCause_of_instr {s : State} {w : Word} {i : Instr} (hf : s.fetch = some w)
    (hi : (decode s.params w s.pc).toInstr = some i) : s.HaltCause ↔ HaltsByPolicy i s := by
  simp [State.HaltCause, HaltsByPolicy, hf, kind_of_toInstr hi, kind_ne_unrecognized]

theorem haltCause_of_unrecognized {s : State} {w : Word} (hf : s.fetch = some w)
    (hi : (decode s.params w s.pc).toInstr = none) : s.HaltCause ↔ s.params.unrecognizedPolicy = .halt := by
  simp [State.HaltCause, hf, (toInstr_eq_none_iff _).mp hi]

/-- A running machine halts, and changes nothing else, exactly for one of the causes of R28. -/
theorem running_step_cases {s t : State} (hr : s.runState = .running) (h : step s = .next t) :
    (s.HaltCause ∧ t = s.halt) ∨ (¬ s.HaltCause ∧ t.runState = .running) := by
  obtain ⟨hh, -⟩ | ⟨-, hf, rfl⟩ | ⟨w, i, -, hf, hi, he⟩ | ⟨w, -, hf, hi, he⟩ := step_cases h
  · simp [hr] at hh
  · exact .inl ⟨.inl hf, rfl⟩
  · obtain ⟨hp, rfl⟩ | ⟨hp, hrun, -⟩ := exec_cases he
    · exact .inl ⟨(haltCause_of_instr hf hi).mpr hp, rfl⟩
    · exact .inr ⟨mt (haltCause_of_instr hf hi).mp hp, hrun.trans hr⟩
  · obtain ⟨hp, rfl⟩ | ⟨hp, rfl⟩ := execUnrecognized_cases he
    · exact .inl ⟨(haltCause_of_unrecognized hf hi).mpr hp, rfl⟩
    · exact .inr ⟨by simp [haltCause_of_unrecognized hf hi, hp], hr⟩

theorem step_halted_eq {s t : State} (h : step s = .next t) (ht : t.runState = .halted) : t = s ∨ t = s.halt := by
  cases hr : s.runState with
  | halted => exact .inl (Host.Outcome.next.inj ((step_of_halted hr).symm.trans h)).symm
  | running =>
    obtain ⟨-, rfl⟩ | ⟨-, hrun⟩ := running_step_cases hr h
    · exact .inr rfl
    · simp [hrun] at ht

/-! ### Alignment of the pc -/

theorem ofNat_aligned {n : Nat} (h : n % 4 = 0) : (BitVec.ofNat 32 n).toNat % 4 = 0 := by
  rw [BitVec.toNat_ofNat]
  omega

theorem ofInt_aligned {n : Int} (h : n % 4 = 0) : (BitVec.ofInt 32 n).toNat % 4 = 0 := by
  rw [BitVec.toNat_ofInt]
  omega

theorem append_two_zeros_aligned {n : Nat} (x : BitVec n) : (x ++ 0#2).toNat % 4 = 0 := by
  simp [BitVec.toNat_append, Nat.shiftLeft_eq]

/-- Every instruction but `jr` goes from an aligned pc to an aligned one (R27). -/
theorem nextPc_aligned {i : Instr} {s : State} (h : s.pcAligned) (hi : i.kind ≠ .jr) :
    (nextPc i s).toNat % 4 = 0 := by
  have hnext : (s.pc.toNat + 4) % 4 = 0 := by
    unfold State.pcAligned at h
    omega
  cases i with
  | jr => exact absurd rfl hi
  | beq rs rt imm | bne rs rt imm =>
    unfold nextPc
    exact ofInt_aligned (by split <;> omega)
  | j | jal => exact append_two_zeros_aligned _
  | add | sub | and | or | xor | nor | slt | sltu | mul | sll | srl | sra | addi | slti | andi | ori | xori | lw
  | sw | syscall | brk | move | nop | li | la => exact ofNat_aligned hnext

theorem advance_aligned {s : State} (h : s.pcAligned) : s.advance.pcAligned := by
  unfold State.pcAligned at *
  rw [advance_pc, add_four_eq_ofNat]
  exact ofNat_aligned (by omega)

/-! ### The obligations on the step, the run state and the pc -/

/-- Settles O39: the equation of the step for a word that is an instruction. -/
theorem stepRunsTheDecodedInstruction : Obligations.StepRunsTheDecodedInstruction :=
  fun _ _ _ hr hf hi => step_of_instr hr hf hi

/-- Settles O42: the causes of R28 are those of `running_step_cases`, and its halting step is `halt` alone. -/
theorem haltedIsEnteredInExactlyThreeWays : Obligations.HaltedIsEnteredInExactlyThreeWays := by
  intro s t hr h
  obtain ⟨hc, rfl⟩ | ⟨hc, hrun⟩ := running_step_cases hr h
  · exact ⟨iff_of_true rfl hc, fun _ => ⟨readReg_halt s, fun _ => rfl, rfl⟩⟩
  · have hne : t.runState ≠ .halted := by simp [hrun]
    exact ⟨iff_of_false hne hc, fun ht => absurd ht hne⟩

/-- Settles O43: `exec_cases` for an instruction, `execUnrecognized_cases` for an unrecognized word; a step that ends
halted is the identity or `halt` alone. -/
theorem pcIsAdvancedOrRedirectedOnce : Obligations.PcIsAdvancedOrRedirectedOnce := by
  refine ⟨?instruction, ?unrecognized, ?halting⟩
  case instruction =>
    intro i s t hr h
    obtain ⟨-, rfl⟩ | ⟨-, hrun, hpc⟩ := exec_cases h
    · exact ⟨nofun, fun _ => rfl⟩
    · exact ⟨fun _ => hpc, fun ht => by simp [hrun, hr] at ht⟩
  case unrecognized =>
    intro s t w hr hf hk h ht
    rw [step_of_unrecognized hr hf ((toInstr_eq_none_iff _).mpr hk)] at h
    obtain ⟨-, rfl⟩ | ⟨-, rfl⟩ := execUnrecognized_cases h
    · simp at ht
    · rfl
  case halting =>
    intro s t h ht
    obtain rfl | rfl := step_halted_eq h ht <;> rfl

/-- Settles O48: a step keeps the pc, advances it, or goes to the `nextPc` of an instruction that is no `jr`. -/
theorem onlyJrMisalignsThePc : Obligations.OnlyJrMisalignsThePc := by
  intro s t ha h hjr
  obtain ⟨-, rfl⟩ | ⟨-, -, rfl⟩ | ⟨w, i, -, hf, hi, he⟩ | ⟨w, -, hf, hi, he⟩ := step_cases h
  · exact ha
  · exact ha
  · obtain ⟨-, rfl⟩ | ⟨-, -, hpc⟩ := exec_cases he
    · exact ha
    · unfold State.pcAligned
      rw [hpc]
      exact nextPc_aligned ha (kind_of_toInstr hi ▸ hjr w hf)
  · obtain ⟨-, rfl⟩ | ⟨-, rfl⟩ := execUnrecognized_cases he
    · exact ha
    · exact advance_aligned ha

end Sys2Proof.Machine
end

section
/-! What a step does to memory (R32, R41, R43), and what it shows in the trace (R36). -/

namespace Sys2Proof.Machine

/-! ### Memory -/

theorem exec_mem_eq {i : Instr} {s t : State} (hi : i.kind ≠ .sw) (h : exec i s = .next t) : t.mem = s.mem := by
  cases i with
  | sw => exact absurd rfl hi
  | beq | bne =>
    obtain rfl := Host.Outcome.next.inj ((branchIf_eq ..).symm.trans h)
    rfl
  | syscall | brk =>
    obtain ⟨-, hu⟩ | ⟨-, hu⟩ := underPolicy_cases s s.params.systemPolicy <;>
      obtain rfl := Host.Outcome.next.inj (hu.symm.trans h) <;> rfl
  | add | sub | and | or | xor | nor | slt | sltu | mul | sll | srl | sra | addi | slti | andi | ori | xori | lw
  | j | jal | jr | move | nop | li | la =>
    obtain rfl := Host.Outcome.next.inj h
    simp

/-- A step keeps the whole memory unless it fetched a `sw` (R43). -/
theorem step_mem_eq_or_sw {s t : State} (h : step s = .next t) :
    t.mem = s.mem ∨ ∃ w, s.fetch = some w ∧ (decode s.params w s.pc).kind = .sw := by
  obtain ⟨-, rfl⟩ | ⟨-, -, rfl⟩ | ⟨w, i, -, hf, hi, he⟩ | ⟨w, -, -, -, he⟩ := step_cases h
  · exact .inl rfl
  · exact .inl rfl
  · by_cases hk : i.kind = .sw
    · exact .inr ⟨w, hf, (kind_of_toInstr hi).trans hk⟩
    · exact .inl (exec_mem_eq hk he)
  · obtain ⟨-, rfl⟩ | ⟨-, rfl⟩ := execUnrecognized_cases he <;> exact .inl rfl

theorem lookup_insert_isSome {m : Mem} {b : Nat} (a : Nat) (w : Word) (h : (Mem.lookup m b).isSome = true) :
    (Mem.lookup (Mem.insert m a w) b).isSome = true := by
  rw [lookup_insert]
  split
  · rfl
  · exact h

/-- No effect makes a present key absent (R41). -/
theorem effect_keeps_presence {s t : State} {a : Nat} (h : Effect s t) (ha : (Mem.lookup s.mem a).isSome = true) :
    (Mem.lookup t.mem a).isSome = true := by
  cases h with
  | store b v => exact lookup_insert_isSome b.toNat v ha
  | reg r v | link v u => simpa using ha
  | go u | halt => exact ha

/-- Settles O49: the one effect that changes memory is a store's, which keeps presence and is a `sw`'s. -/
theorem cellsAreNeverRemoved : Obligations.CellsAreNeverRemoved := by
  intro s t h
  constructor
  · intro a ha
    obtain rfl | hE := step_effect h
    · exact ha
    · exact effect_keeps_presence hE ha
  · obtain hm | hsw := step_mem_eq_or_sw h
    · exact .inl fun a => by rw [hm]
    · exact .inr hsw

/-! ### The trace -/

theorem registerFile_getElem (s : State) (r : RegId) : s.registerFile[r.toNat]'(r.isLt) = s.readReg r := by
  simp [State.registerFile]

/-- A trace element is emitted exactly for a step that executes and does not halt (R31, R36). -/
theorem traceElement_eq_some_iff {s t : State} (h : step s = .next t) (e : TraceElement) :
    traceElement s = some e ↔ s.runState = .running ∧ t.runState = .running ∧
      ∃ w, s.fetch = some w ∧ e = ⟨s.pc, decode s.params w s.pc, t.registerFile⟩ := by
  unfold traceElement
  rw [h]
  cases hs : s.runState with
  | halted => simp
  | running =>
    cases hf : s.fetch with
    | none => simp
    | some w => cases ht : t.runState <;> simp [ht, eq_comm]

/-- Settles O52: by `traceElement_eq_some_iff`; a running machine that goes on has fetched a word. -/
theorem traceShowsExecutedSteps : Obligations.TraceShowsExecutedSteps := by
  intro s t h
  constructor
  · intro e he
    obtain ⟨hs, ht, w, hf, rfl⟩ := (traceElement_eq_some_iff h e).mp he
    exact ⟨hs, ht, rfl, ⟨w, hf, rfl⟩, registerFile_getElem t⟩
  · intro hnone
    cases hs : s.runState with
    | halted => exact .inl rfl
    | running =>
      obtain ⟨-, rfl⟩ | ⟨hc, ht⟩ := running_step_cases hs h
      · exact .inr rfl
      · obtain ⟨w, hf⟩ := Option.ne_none_iff_exists'.mp fun hf => hc (.inl hf)
        have he := (traceElement_eq_some_iff h _).mpr ⟨hs, ht, w, hf, rfl⟩
        simp [hnone] at he

end Sys2Proof.Machine
end

section
/-! What an instruction's effect depends on: its sources, the pc, the parameters and the words that `lw` reads, which
presence does not change (R24, R32). -/

namespace Sys2Proof.Machine

/-! ### The effect of an instruction as data -/

/-- The effects of `Effect`, as data that can be applied to two states. -/
inductive Update where
  /-- A register written, the pc advanced. -/
  | reg (r : RegId) (v : Word)
  /-- A cell written, the pc advanced. -/
  | store (a v : Word)
  /-- The pc set. -/
  | go (t : Word)
  /-- The link register and the pc set. -/
  | link (v t : Word)
  /-- The run state set to Halted. -/
  | halt

def Update.apply (s : State) : Update → State
  | .reg r v => (s.writeReg r v).advance
  | .store a v => (s.memWrite a v).advance
  | .go t => s.redirect t
  | .link v t => (s.writeReg linkReg v).redirect t
  | .halt => s.halt

/-- The register an update writes. -/
def Update.dest : Update → Option RegId
  | .reg r _ => some r
  | .link _ _ => some linkReg
  | .store _ _ | .go _ | .halt => none

theorem apply_pc_congr (u : Update) {s s' : State} (h : s'.pc = s.pc) : (u.apply s').pc = (u.apply s).pc := by
  cases u <;> simp [Update.apply, h]

theorem apply_mem_congr (u : Update) {s s' : State} (h : s'.mem = s.mem) : (u.apply s').mem = (u.apply s).mem := by
  cases u <;> simp [Update.apply, h]

theorem apply_runState_congr (u : Update) {s s' : State} (h : s'.runState = s.runState) :
    (u.apply s').runState = (u.apply s).runState := by
  cases u <;> simp [Update.apply, h]

theorem readReg_apply_other {u : Update} (s : State) {q : RegId} (h : some q ≠ u.dest) :
    (u.apply s).readReg q = s.readReg q := by
  cases u with
  | reg r v | link v t => exact readReg_writeReg_other s v fun e => h (congrArg some e)
  | store | go | halt => rfl

/-- A written register reads the same whatever it held, since a hard-wired one reads zero (R23). -/
theorem readReg_writeReg_congr {s s' : State} (r : RegId) (v : Word) (h : s'.params = s.params) :
    (s'.writeReg r v).readReg r = (s.writeReg r v).readReg r := by
  have hz : s'.isHardZero r = s.isHardZero r := by simp [State.isHardZero, h]
  cases hr : s.isHardZero r with
  | true => rw [readReg_hardZero (by simpa using hz.trans hr), readReg_hardZero (by simpa using hr)]
  | false => simp [readReg_writeReg, hr, hz]

theorem readReg_apply_dest {u : Update} {s s' : State} {d : RegId} (hd : u.dest = some d) (h : s'.params = s.params) :
    (u.apply s').readReg d = (u.apply s).readReg d := by
  cases u with
  | reg r v | link v t =>
    cases hd
    exact readReg_writeReg_congr _ v h
  | store | go | halt => cases hd

/-! ### What an instruction's effect depends on (R24) -/

/-- Two states agree on all an instruction with the sources `rs` can read: the pc, the parameters, these registers
and the words of memory as `lw` reads them. -/
structure AgreeOn (rs : List RegId) (s s' : State) : Prop where
  pc : s'.pc = s.pc
  params : s'.params = s.params
  reg : ∀ q ∈ rs, s'.readReg q = s.readReg q
  memRead : ∀ a, s'.memRead a = s.memRead a

theorem AgreeOn.refl (rs : List RegId) (s : State) : AgreeOn rs s s := ⟨rfl, rfl, fun _ _ => rfl, fun _ => rfl⟩

/-- In `s` and in `s'` the action `f` completes by one and the same update, which writes the register `d`. -/
def SameUpdate (d : Option RegId) (f : State → Host.Outcome State Fault Refusal) (s s' : State) : Prop :=
  ∃ u : Update, u.dest = d ∧ f s = .next (u.apply s) ∧ f s' = .next (u.apply s')

section Congruence
variable {s s' : State} {rs rt : RegId}

theorem aluRegs_sameUpdate (f : Word → Word → Word) (rd : RegId) (h : AgreeOn [rs, rt] s s') :
    SameUpdate (some rd) (fun x => x.aluRegs f rd rs rt) s s' := by
  refine ⟨.reg rd _, rfl, rfl, ?_⟩
  simp only [State.aluRegs, h.reg rs (by simp), h.reg rt (by simp)]
  rfl

theorem shiftReg_sameUpdate (f : Word → Nat → Word) (rd : RegId) (sh : Shamt) (h : AgreeOn [rt] s s') :
    SameUpdate (some rd) (fun x => x.shiftReg f rd rt sh) s s' := by
  refine ⟨.reg rd _, rfl, rfl, ?_⟩
  simp only [State.shiftReg, h.reg rt (by simp)]
  rfl

theorem aluImm_sameUpdate (f : Word → Word → Word) (rt : RegId) (b : Word) (h : AgreeOn [rs] s s') :
    SameUpdate (some rt) (fun x => x.aluImm f rt rs b) s s' := by
  refine ⟨.reg rt _, rfl, rfl, ?_⟩
  simp only [State.aluImm, h.reg rs (by simp)]
  rfl

theorem execLw_sameUpdate (imm : Imm16) (h : AgreeOn [rs] s s') : SameUpdate (some rt) (execLw rt rs imm) s s' := by
  refine ⟨.reg rt _, rfl, rfl, ?_⟩
  simp only [execLw, State.effectiveAddress, h.reg rs (by simp), h.memRead]
  rfl

theorem execSw_sameUpdate (imm : Imm16) (h : AgreeOn [rs, rt] s s') : SameUpdate none (execSw rt rs imm) s s' := by
  refine ⟨.store _ _, rfl, rfl, ?_⟩
  simp only [execSw, State.effectiveAddress, h.reg rs (by simp), h.reg rt (by simp)]
  rfl

theorem branch_sameUpdate (taken : Word → Word → Bool) (imm : Imm16) (h : AgreeOn [rs, rt] s s') :
    SameUpdate none (fun x => x.branchIf (taken (x.readReg rs) (x.readReg rt)) (x.branchTarget imm)) s s' := by
  refine ⟨.go _, rfl, branchIf_eq .., ?_⟩
  simp only [branchIf_eq, State.branchTarget, h.reg rs (by simp), h.reg rt (by simp), h.pc]
  rfl

theorem underPolicy_sameUpdate (pol : Config.Params → Config.Policy) (hpc : s'.pc = s.pc)
    (hpar : s'.params = s.params) : SameUpdate none (fun x => x.underPolicy (pol x.params)) s s' := by
  obtain ⟨hp, hu⟩ | ⟨hp, hu⟩ := underPolicy_cases s (pol s.params)
  · exact ⟨.go (s.pc + 4#32), rfl, hu, by simp only [hpar, hp, ← hpc]; rfl⟩
  · exact ⟨.halt, rfl, hu, by simp only [hpar, hp]; rfl⟩

end Congruence

/-- In states that agree on what it reads an instruction does the same update, which writes its destination alone. -/
theorem exec_sameUpdate {i : Instr} {s s' : State} (h : AgreeOn (sourcesOf i) s s') :
    SameUpdate (destOf i) (exec i) s s' := by
  cases i with
  | add | sub | and | or | xor | mul | move => exact aluRegs_sameUpdate _ _ h
  | nor => exact aluRegs_sameUpdate (fun a b => ~~~(a ||| b)) _ h
  | slt => exact aluRegs_sameUpdate (fun a b => truthWord (signedLess a b)) _ h
  | sltu => exact aluRegs_sameUpdate (fun a b => truthWord (unsignedLess a b)) _ h
  | sll | srl | sra | nop => exact shiftReg_sameUpdate _ _ _ h
  | addi | andi | ori | xori | li | la => exact aluImm_sameUpdate _ _ _ h
  | slti => exact aluImm_sameUpdate (fun a b => truthWord (signedLess a b)) _ _ h
  | lw => exact execLw_sameUpdate _ h
  | sw => exact execSw_sameUpdate _ h
  | beq => exact branch_sameUpdate (· == ·) _ h
  | bne => exact branch_sameUpdate (· != ·) _ h
  | j => exact ⟨.go _, rfl, rfl, by rw [← h.pc]; rfl⟩
  | jal => exact ⟨.link _ _, rfl, rfl, by rw [← h.pc]; rfl⟩
  | jr rs => exact ⟨.go _, rfl, rfl, by rw [← h.reg rs (by simp [sourcesOf])]; rfl⟩
  | syscall | brk => exact underPolicy_sameUpdate (·.systemPolicy) h.pc h.params

/-- Settles O44: `exec_sameUpdate` of a state with itself, of two agreeing states, and the policies' update for an
unrecognized word. -/
theorem onlySourcesReadOnlyDestinationWritten : Obligations.OnlySourcesReadOnlyDestinationWritten := by
  refine ⟨?frame, ?sources, ?unrecognized⟩
  case frame =>
    intro i s t h q hq
    obtain ⟨u, hd, hu, -⟩ := exec_sameUpdate (.refl (sourcesOf i) s)
    obtain rfl := Host.Outcome.next.inj (hu.symm.trans h)
    exact readReg_apply_other s (hd ▸ hq)
  case sources =>
    intro i s s' hpc hmem hrun hpar hreg
    have hA : AgreeOn (sourcesOf i) s s' := ⟨hpc, hpar, hreg, fun a => by simp [State.memRead, hmem]⟩
    obtain ⟨u, hd, hu, hu'⟩ := exec_sameUpdate hA
    exact ⟨_, _, hu, hu', apply_pc_congr u hpc, apply_mem_congr u hmem, apply_runState_congr u hrun,
      fun d hdest => readReg_apply_dest (hd.trans hdest) hpar⟩
  case unrecognized =>
    intro s s' hpc hrun hpar
    obtain ⟨u, hd, hu, hu'⟩ := underPolicy_sameUpdate (·.unrecognizedPolicy) hpc hpar
    have hkept (x : State) : RegsKept x (u.apply x) := fun q => readReg_apply_other x (by simp [hd])
    exact ⟨_, _, hu, hu', hkept s, hkept s', apply_pc_congr u hpc,
      apply_runState_congr u hrun⟩

/-! ### Presence -/

/-- A zero cell at an absent key reads as the absent key did (R42). -/
theorem memRead_memWrite_zero {s : State} {a : Word} (h : Mem.lookup s.mem a.toNat = none) (b : Word) :
    (s.memWrite a 0#32).memRead b = s.memRead b := by
  rw [memRead_memWrite]
  split
  · next hb => simp [hb, State.memRead, h]
  · rfl

theorem agreeOn_memWrite_zero {s : State} {a : Word} (rs : List RegId) (h : Mem.lookup s.mem a.toNat = none) :
    AgreeOn rs s (s.memWrite a 0#32) :=
  ⟨rfl, rfl, fun _ _ => rfl, memRead_memWrite_zero h⟩

/-- The zero word is `sll $zero, $zero, 0` under every `FUNCT_MUL`, since the fixed rows come first (R74). -/
theorem toInstr_decode_zero (p : Config.Params) (a : Word) :
    (decode p 0#32 a).toInstr = some (.sll 0#5 0#5 0#5) := rfl

/-- Settles O51: the two states agree on all that any instruction reads; a fetch at the new cell finds the zero word,
which only advances. -/
theorem presenceIsSeenByFetchAlone : Obligations.PresenceIsSeenByFetchAlone := by
  intro s a habs
  constructor
  · intro i
    obtain ⟨u, hd, hu, hu'⟩ := exec_sameUpdate (agreeOn_memWrite_zero (sourcesOf i) habs)
    refine ⟨_, _, hu, hu', apply_pc_congr u rfl, apply_runState_congr u rfl, fun q => ?_⟩
    by_cases hq : u.dest = some q
    · exact readReg_apply_dest hq rfl
    · rw [readReg_apply_other _ (Ne.symm hq), readReg_apply_other _ (Ne.symm hq), readReg_memWrite]
  · rintro hr rfl
    have hf : (s.memWrite s.pc 0#32).fetch = some 0#32 := lookup_insert_same ..
    have hstep := step_of_instr (s := s.memWrite s.pc 0#32) hr hf (toInstr_decode_zero ..)
    exact ⟨⟨_, step_of_absent hr habs, rfl⟩, _, hstep, by simpa using hr, by simp⟩

end Sys2Proof.Machine
end

section
/-! The memory at a fetch, at a write and along a step (R40, R43, R45): the invariant of the state, the exact key of
a fetch, and the one instruction that writes a cell. -/

namespace Sys2Proof.Machine

/-! ### The invariant along an effect -/

theorem writeReg_inv {s : State} (r : RegId) (v : Word) (h : s.Inv) : (s.writeReg r v).Inv := by
  obtain ⟨hmem, hzero⟩ := h
  refine ⟨by rwa [writeReg_mem], fun hz => ?_⟩
  rw [writeReg_params] at hz
  rw [writeReg_cell_zero s r v hz]
  exact hzero hz

theorem memWrite_inv {s : State} (a v : Word) (h : s.Inv) : (s.memWrite a v).Inv := by
  obtain ⟨hmem, hzero⟩ := h
  exact ⟨memWrite_wf a v hmem, hzero⟩

/-- The pc and the run state are no part of the invariant, so only the two writes can touch it (R23, R40). -/
theorem effect_keeps_inv {s t : State} (h : Effect s t) (hs : s.Inv) : t.Inv := by
  cases h with
  | reg r v | link v u => exact writeReg_inv _ v hs
  | store a v => exact memWrite_inv a v hs
  | go u | halt => exact hs

/-- No effect changes a parameter (R33). -/
theorem effect_params {s t : State} (h : Effect s t) : t.params = s.params := by
  cases h with
  | reg r v | link v u => exact writeReg_params s _ v
  | store a v | go u | halt => rfl

/-- Settles O45: a step changes nothing or has one of the effects, each of which keeps both. -/
theorem stepKeepsTheInvariant : Obligations.StepKeepsTheInvariant := by
  intro s t hs h
  obtain rfl | hE := step_effect h
  · exact ⟨hs, rfl⟩
  · exact ⟨effect_keeps_inv hE hs, effect_params hE⟩

/-! ### The fetch -/

/-- Settles O40: an absent key makes the step `halt` alone; a present word is decoded, and each answer of the decoder
has its equation of the step. -/
theorem fetchUsesTheExactKey : Obligations.FetchUsesTheExactKey := by
  intro s hr
  constructor
  case left =>
    intro hf
    exact ⟨s.halt, step_of_absent hr hf, rfl, readReg_halt s, rfl, fun _ => rfl, rfl⟩
  case right =>
    intro w hf
    refine ⟨hf, ?_⟩
    split
    · next i hi => exact step_of_instr hr hf hi
    · next hi => exact step_of_unrecognized hr hf hi

/-! ### The write -/

theorem kind_eq_sw_iff {i : Instr} : i.kind = .sw ↔ ∃ rt rs imm, i = .sw rt rs imm := by
  cases i <;> simp [Instr.kind]

/-- What a `sw` that completes does to memory: one write at its effective address (R43, R131). -/
theorem exec_sw_onlyKeyWritten {rt rs : RegId} {imm : Imm16} {s t : State} (h : exec (.sw rt rs imm) s = .next t) :
    OnlyKeyWritten s t (s.effectiveAddress rs imm) (s.readReg rt) := by
  obtain rfl := Host.Outcome.next.inj h
  exact onlyKeyWritten_memWrite s _ _

/-- Settles O50: `memWrite` writes its key alone, a `sw` is one `memWrite`, and every other instruction keeps the
memory. -/
theorem onlySwWritesMemory : Obligations.OnlySwWritesMemory := by
  refine ⟨onlyKeyWritten_memWrite, fun i s t h => ?_⟩
  by_cases hk : i.kind = .sw
  · obtain ⟨rt, rs, imm, rfl⟩ := kind_eq_sw_iff.mp hk
    exact .inr ⟨rt, rs, imm, rfl, exec_sw_onlyKeyWritten h⟩
  · have hmem : t.mem = s.mem := exec_mem_eq hk h
    exact .inl fun a => by rw [hmem]

end Sys2Proof.Machine
end

section
/-! The word as numbers (R61 to R64): its fields are quotients and remainders, its layouts weighted sums, and a word
is the layout of its own fields. -/

namespace Sys2Proof

/-! ### The fields of a word -/

theorem toNat_slice {n : Nat} (x : BitVec n) (k l : Nat) : (x.extractLsb' k l).toNat = x.toNat / 2 ^ k % 2 ^ l := by
  rw [BitVec.extractLsb'_toNat, Nat.shiftRight_eq_div_pow]

theorem opcodeOf_toNat (w : Word) : (opcodeOf w).toNat = w.toNat / 2 ^ 26 := by
  have hw := w.isLt
  rw [opcodeOf, toNat_slice]
  omega

theorem rsOf_toNat (w : Word) : (rsOf w).toNat = w.toNat / 2 ^ 21 % 2 ^ 5 := toNat_slice ..

theorem rtOf_toNat (w : Word) : (rtOf w).toNat = w.toNat / 2 ^ 16 % 2 ^ 5 := toNat_slice ..

theorem rdOf_toNat (w : Word) : (rdOf w).toNat = w.toNat / 2 ^ 11 % 2 ^ 5 := toNat_slice ..

theorem shamtOf_toNat (w : Word) : (shamtOf w).toNat = w.toNat / 2 ^ 6 % 2 ^ 5 := toNat_slice ..

theorem functOf_toNat (w : Word) : (functOf w).toNat = w.toNat % 2 ^ 6 := by
  rw [functOf, toNat_slice, pow_zero, Nat.div_one]

theorem imm16Of_toNat (w : Word) : (imm16Of w).toNat = w.toNat % 2 ^ 16 := by
  rw [imm16Of, toNat_slice, pow_zero, Nat.div_one]

theorem addr26Of_toNat (w : Word) : (addr26Of w).toNat = w.toNat % 2 ^ 26 := by
  rw [addr26Of, toNat_slice, pow_zero, Nat.div_one]

/-! ### The layouts -/

/-- A concatenation is a weighted sum. -/
theorem toNat_append_eq_add {n m : Nat} (x : BitVec n) (y : BitVec m) :
    (x ++ y).toNat = x.toNat * 2 ^ m + y.toNat := by
  rw [BitVec.toNat_append, ← Nat.shiftLeft_add_eq_or_of_lt y.isLt, Nat.shiftLeft_eq]

theorem rFormat_toNat (rs rt rd : RegId) (sh : Shamt) (f : OpCode) :
    (rFormat rs rt rd sh f).toNat =
      rs.toNat * 2 ^ 21 + rt.toNat * 2 ^ 16 + rd.toNat * 2 ^ 11 + sh.toNat * 2 ^ 6 + f.toNat := by
  simp only [rFormat, toNat_append_eq_add, BitVec.toNat_ofNat]
  omega

theorem iFormat_toNat (op : OpCode) (rs rt : RegId) (imm : Imm16) :
    (iFormat op rs rt imm).toNat = op.toNat * 2 ^ 26 + rs.toNat * 2 ^ 21 + rt.toNat * 2 ^ 16 + imm.toNat := by
  simp only [iFormat, toNat_append_eq_add]
  omega

theorem jFormat_toNat (op : OpCode) (t : Addr26) : (jFormat op t).toNat = op.toNat * 2 ^ 26 + t.toNat :=
  toNat_append_eq_add op t

/-! ### A word is the layout of its own fields -/

theorem rFormat_fields {w : Word} (h : opcodeOf w = 0b000000#6) :
    rFormat (rsOf w) (rtOf w) (rdOf w) (shamtOf w) (functOf w) = w := by
  have hop : w.toNat / 2 ^ 26 = 0 := by rw [← opcodeOf_toNat, h]; rfl
  apply BitVec.eq_of_toNat_eq
  rw [rFormat_toNat, rsOf_toNat, rtOf_toNat, rdOf_toNat, shamtOf_toNat, functOf_toNat]
  omega

theorem iFormat_fields (w : Word) : iFormat (opcodeOf w) (rsOf w) (rtOf w) (imm16Of w) = w := by
  apply BitVec.eq_of_toNat_eq
  rw [iFormat_toNat, opcodeOf_toNat, rsOf_toNat, rtOf_toNat, imm16Of_toNat]
  omega

theorem jFormat_fields (w : Word) : jFormat (opcodeOf w) (addr26Of w) = w := by
  apply BitVec.eq_of_toNat_eq
  rw [jFormat_toNat, opcodeOf_toNat, addr26Of_toNat]
  omega

/-- An R-type layout is the word `w` exactly when its parts are the fields of `w`. -/
theorem rFormat_eq_iff {w : Word} (h : opcodeOf w = 0b000000#6) {rs rt rd : RegId} {sh : Shamt} {f : OpCode} :
    rFormat rs rt rd sh f = w ↔ rsOf w = rs ∧ rtOf w = rt ∧ rdOf w = rd ∧ shamtOf w = sh ∧ functOf w = f := by
  constructor
  · rintro rfl
    exact ⟨rsOf_rFormat .., rtOf_rFormat .., rdOf_rFormat .., shamtOf_rFormat .., functOf_rFormat ..⟩
  · rintro ⟨rfl, rfl, rfl, rfl, rfl⟩
    exact rFormat_fields h

/-- Settles O1: each field is a slice of the word, each layout a weighted sum. -/
theorem fieldsAreBitRanges : Obligations.FieldsAreBitRanges :=
  ⟨fun _ w _ => ⟨opcodeOf_toNat w, rsOf_toNat w, rtOf_toNat w, rdOf_toNat w, shamtOf_toNat w, functOf_toNat w,
    imm16Of_toNat w, addr26Of_toNat w⟩, rFormat_toNat, iFormat_toNat, jFormat_toNat⟩

end Sys2Proof
end

section
/-! The opcode map read in both directions (R70 to R74): a kind and its code determine each other, and a code without
a row is unrecognized. -/

namespace Sys2Proof

/-! ### Any table of codes -/

theorem kindOfCode_of_notMem {rows : List (OpCode × Kind)} {x : OpCode} (h : x ∉ rows.map (·.1)) :
    kindOfCode rows x = .unrecognized := by
  induction rows with
  | nil => rfl
  | cons e rows ih =>
    simp only [List.map_cons, List.mem_cons, not_or] at h
    simp only [kindOfCode, h.1, if_false, ih h.2]

theorem kindOfCode_mem {rows : List (OpCode × Kind)} {x : OpCode} (h : x ∈ rows.map (·.1)) :
    (x, kindOfCode rows x) ∈ rows := by
  induction rows with
  | nil => simp at h
  | cons e rows ih =>
    obtain ⟨c, k⟩ := e
    by_cases hx : x = c
    · simp [kindOfCode, hx]
    · simp only [List.map_cons, List.mem_cons, hx, false_or] at h
      simp [kindOfCode, hx, ih h]

/-- The kinds that a table gives: those of its rows, and `unrecognized`. -/
theorem kindOfCode_mem_or_unrecognized (rows : List (OpCode × Kind)) (x : OpCode) :
    (x, kindOfCode rows x) ∈ rows ∨ kindOfCode rows x = .unrecognized := by
  by_cases h : x ∈ rows.map (·.1)
  · exact .inl (kindOfCode_mem h)
  · exact .inr (kindOfCode_of_notMem h)

/-- In a table with distinct kinds a row's kind has the row's code. -/
theorem codeOfKind_of_mem {rows : List (OpCode × Kind)} (hn : (rows.map (·.2)).Nodup) {x : OpCode} {k : Kind}
    (h : (x, k) ∈ rows) : codeOfKind rows k = x := by
  induction rows with
  | nil => simp at h
  | cons e rows ih =>
    obtain ⟨c, k'⟩ := e
    obtain ⟨hk, hn⟩ := List.nodup_cons.mp hn
    obtain heq | h := List.mem_cons.mp h
    · obtain ⟨rfl, rfl⟩ := Prod.mk.inj heq
      simp [codeOfKind]
    · have hne : k ≠ k' := fun e => hk (List.mem_map.mpr ⟨_, h, e⟩)
      simp only [codeOfKind, hne, if_false, ih hn h]

theorem kindOfCode_eq_unrecognized_iff {rows : List (OpCode × Kind)} (hr : .unrecognized ∉ rows.map (·.2))
    (x : OpCode) : kindOfCode rows x = .unrecognized ↔ x ∉ rows.map (·.1) := by
  refine ⟨fun h hx => hr ?_, kindOfCode_of_notMem⟩
  exact List.mem_map.mpr ⟨_, kindOfCode_mem hx, h⟩

/-! ### The two tables of the machine -/

/-- The kinds of class R, selected by funct. -/
def rKinds : List Kind := fixedRRows.map (·.2) ++ [.mul]

/-- The kinds of the classes I and J, selected by opcode. -/
def opKinds : List Kind := opRows.map (·.2)

theorem rRows_kinds (p : Config.Params) : (rRows p).map (·.2) = rKinds := by
  simp [rRows, rKinds]

/-- No two rows of the opcode map, of either table, have the same kind. -/
theorem kinds_distinct : (rKinds ++ opKinds).Nodup := by decide

theorem unrecognized_notMem_kinds : .unrecognized ∉ rKinds ∧ .unrecognized ∉ opKinds := by decide

theorem kindOf_of_opcode_zero_mem (p : Config.Params) {w : Word} (h : opcodeOf w = 0b000000#6) :
    (functOf w, kindOf p w) ∈ rRows p ∨ kindOf p w = .unrecognized := by
  rw [kindOf_of_opcode_zero p h]
  exact kindOfCode_mem_or_unrecognized (rRows p) (functOf w)

theorem kindOf_of_opcode_mem (p : Config.Params) {w : Word} (h : opcodeOf w ≠ 0b000000#6) :
    (opcodeOf w, kindOf p w) ∈ opRows ∨ kindOf p w = .unrecognized := by
  rw [kindOf_of_opcode p h]
  exact kindOfCode_mem_or_unrecognized opRows (opcodeOf w)

/-- A word of a kind of class R has opcode zero and the funct of its kind (R72). -/
theorem opcode_funct_of_kind {p : Config.Params} {w : Word} (hk : kindOf p w ∈ rKinds) :
    opcodeOf w = 0b000000#6 ∧ functOf w = codeOfKind (rRows p) (kindOf p w) := by
  have hne : kindOf p w ≠ .unrecognized := fun h => unrecognized_notMem_kinds.1 (h ▸ hk)
  obtain ⟨hnodup, -, hdisj⟩ := List.nodup_append.mp kinds_distinct
  by_cases hop : opcodeOf w = 0b000000#6
  · have hrow := (kindOf_of_opcode_zero_mem p hop).resolve_right hne
    exact ⟨hop, (codeOfKind_of_mem (rRows_kinds p ▸ hnodup) hrow).symm⟩
  · have hrow := (kindOf_of_opcode_mem p hop).resolve_right hne
    exact absurd rfl (hdisj _ hk _ (List.mem_map_of_mem hrow))

/-- A word of a kind of the classes I and J has the opcode of its kind (R73). -/
theorem opcode_of_kind {p : Config.Params} {w : Word} (hk : kindOf p w ∈ opKinds) :
    opcodeOf w = codeOfKind opRows (kindOf p w) := by
  have hne : kindOf p w ≠ .unrecognized := fun h => unrecognized_notMem_kinds.2 (h ▸ hk)
  obtain ⟨-, hnodup, hdisj⟩ := List.nodup_append.mp kinds_distinct
  by_cases hop : opcodeOf w = 0b000000#6
  · have hrow := (kindOf_of_opcode_zero_mem p hop).resolve_right hne
    exact absurd rfl (hdisj _ (rRows_kinds p ▸ List.mem_map_of_mem hrow) _ hk)
  · have hrow := (kindOf_of_opcode_mem p hop).resolve_right hne
    exact (codeOfKind_of_mem hnodup hrow).symm

/-! ### The unrecognized words -/

/-- The functs without a row under the default `FUNCT_MUL` (R74). -/
theorem funct_unrecognized_iff : ∀ f : OpCode, kindOfCode (rRows defaultParams) f = .unrecognized ↔ f.toNat ∈
    [1, 4, 5, 6, 7, 9, 10, 11, 14, 15, 16, 17, 18, 19, 20, 21, 22, 23, 25, 26, 27, 28, 29, 30, 31, 33, 35, 40, 41,
     44, 45, 46, 47, 48, 49, 50, 51, 52, 53, 54, 55, 56, 57, 58, 59, 60, 61, 62, 63] := by
  intro f
  rw [kindOfCode_eq_unrecognized_iff (by decide)]
  revert f
  decide

/-- The opcodes without a row; zero has none either but selects class R (R74). -/
theorem opcode_unrecognized_iff : ∀ op : OpCode, op ≠ 0#6 → (kindOfCode opRows op = .unrecognized ↔
    op.toNat ∉ [0, 2, 3, 4, 5, 8, 10, 12, 13, 14, 35, 43]) := by
  intro op
  rw [kindOfCode_eq_unrecognized_iff (by decide)]
  revert op
  decide

/-- Settles O6: a word of opcode zero is unrecognized by its funct, any other by its opcode. -/
theorem unrecognizedWordsExactly : Obligations.UnrecognizedWordsExactly := by
  intro w a
  change kindOf defaultParams w = .unrecognized ↔ _
  by_cases hop : opcodeOf w = 0#6
  · rw [kindOf_of_opcode_zero _ hop, funct_unrecognized_iff]
    simp [hop]
  · rw [kindOf_of_opcode _ hop, opcode_unrecognized_iff _ hop]
    simp only [hop, false_and, false_or]

end Sys2Proof
end

section
/-! Decoding and encoding (R71 to R87): the decoder answers an instruction exactly when the word has its kind and its
operands, whatever stands in the other fields. -/

namespace Sys2Proof

/-! ### What the decoder answers -/

/-- The fields of `w` that the kind of `i` uses hold the operands of `i` (R75); a pseudo-instruction stands in no
word. -/
def OperandsIn (w : Word) : Instr → Prop
  | .add rd rs rt | .sub rd rs rt | .and rd rs rt | .or rd rs rt | .xor rd rs rt | .nor rd rs rt | .slt rd rs rt
  | .sltu rd rs rt | .mul rd rs rt => rdOf w = rd ∧ rsOf w = rs ∧ rtOf w = rt
  | .sll rd rt sh | .srl rd rt sh | .sra rd rt sh => rdOf w = rd ∧ rtOf w = rt ∧ shamtOf w = sh
  | .jr rs => rsOf w = rs
  | .syscall | .brk => True
  | .addi rt rs imm | .slti rt rs imm | .andi rt rs imm | .ori rt rs imm | .xori rt rs imm | .lw rt rs imm
  | .sw rt rs imm => rtOf w = rt ∧ rsOf w = rs ∧ imm16Of w = imm
  | .beq rs rt imm | .bne rs rt imm => rsOf w = rs ∧ rtOf w = rt ∧ imm16Of w = imm
  | .j t | .jal t => addr26Of w = t
  | .move _ _ | .nop | .li _ _ | .la _ _ => False

/-- The decoder answers `i` exactly for the words of the kind of `i` that hold its operands. -/
theorem decode_eq_some_iff {p : Config.Params} {w a : Word} {i : Instr} :
    (decode p w a).toInstr = some i ↔ kindOf p w = i.kind ∧ OperandsIn w i := by
  constructor
  · intro h
    refine ⟨kind_of_toInstr h, ?_⟩
    unfold Decoded.toInstr at h
    split at h <;> cases h <;> simp [OperandsIn, decode]
  · rintro ⟨hk, ho⟩
    cases i with
    | move | nop | li | la => exact ho.elim
    | syscall | brk => simp [Decoded.toInstr, decode, hk, Instr.kind]
    | jr | j | jal =>
      obtain rfl := ho
      simp [Decoded.toInstr, decode, hk, Instr.kind]
    | add | sub | and | or | xor | nor | slt | sltu | mul | sll | srl | sra | addi | slti | andi | ori | xori | lw
    | sw | beq | bne =>
      obtain ⟨rfl, rfl, rfl⟩ := ho
      simp [Decoded.toInstr, decode, hk, Instr.kind]

theorem wf_of_operandsIn {w : Word} {i : Instr} (h : OperandsIn w i) : i.wf = true := by
  cases i with
  | move | nop | li | la => exact h.elim
  | _ => rfl

/-- Settles O7: only machine instructions have their operands in a word. -/
theorem decoderGivesMachineInstructions : Obligations.DecoderGivesMachineInstructions := by
  intro p w a
  refine ⟨toInstr_eq_none_iff _, fun i h => ?_⟩
  exact wf_of_operandsIn (decode_eq_some_iff.mp h).2

/-! ### Decoding what was encoded -/

/-- The word of an instruction is of its kind. -/
theorem kindOf_encode {p : Config.Params} (hp : p.wf = true) (i : Instr) : kindOf p (encode p i) = i.kind := by
  cases i with
  | mul => exact (kindOf_rFormat ..).trans (kindOfCode_functMul hp)
  | add | sub | and | or | xor | nor | slt | sltu | sll | srl | sra | jr | syscall | brk | move | nop =>
    exact kindOf_rFormat ..
  | addi | slti | andi | ori | xori | lw | sw | beq | bne | li | la => exact kindOf_iFormat _ _ _ _ (by decide)
  | j | jal => exact kindOf_jFormat _ _ (by decide)

theorem kind_expand (i : Instr) : i.expand.kind = i.kind := by
  cases i <;> rfl

/-- The word of an instruction holds the operands of its expansion. -/
theorem operandsIn_encode (p : Config.Params) (i : Instr) : OperandsIn (encode p i) i.expand := by
  cases i with
  | add | sub | and | or | xor | nor | slt | sltu | mul | move =>
    exact ⟨rdOf_rFormat .., rsOf_rFormat .., rtOf_rFormat ..⟩
  | sll | srl | sra | nop => exact ⟨rdOf_rFormat .., rtOf_rFormat .., shamtOf_rFormat ..⟩
  | jr => exact rsOf_rFormat ..
  | syscall | brk => trivial
  | addi | slti | andi | ori | xori | lw | sw | li | la =>
    exact ⟨rtOf_iFormat .., rsOf_iFormat .., imm16Of_iFormat ..⟩
  | beq | bne => exact ⟨rsOf_iFormat .., rtOf_iFormat .., imm16Of_iFormat ..⟩
  | j | jal => exact addr26Of_jFormat ..

theorem expand_of_wf {i : Instr} (h : i.wf = true) : i.expand = i := by
  cases i with
  | move | nop | li | la => simp [Instr.wf] at h
  | _ => rfl

/-- Settles O3: the word of an instruction is of its kind and holds the operands of its expansion. -/
theorem decodeInvertsEncode : Obligations.DecodeInvertsEncode := by
  intro p i a hp
  refine ⟨decode_eq_some_iff.mpr ⟨?_, operandsIn_encode p i⟩, expand_of_wf⟩
  rw [kindOf_encode hp, kind_expand]

/-! ### R-type words, whatever their unused fields hold -/

theorem decodeWord_rFormat {p : Config.Params} {rs rt rd : RegId} {sh : Shamt} {f : OpCode} {i : Instr}
    (hk : kindOfCode (rRows p) f = i.kind) (ho : OperandsIn (rFormat rs rt rd sh f) i) :
    decodeWord p (rFormat rs rt rd sh f) = some i :=
  decode_eq_some_iff.mpr ⟨(kindOf_rFormat ..).trans hk, ho⟩

/-- Settles O5: each funct selects its row's kind, and a layout holds every operand in its place. -/
theorem rTypeDecodeIgnoresZeroedFields : Obligations.RTypeDecodeIgnoresZeroedFields := by
  intro p rs rt rd sh
  have hregs (f : OpCode) : rdOf (rFormat rs rt rd sh f) = rd ∧ rsOf (rFormat rs rt rd sh f) = rs ∧
      rtOf (rFormat rs rt rd sh f) = rt := ⟨rdOf_rFormat .., rsOf_rFormat .., rtOf_rFormat ..⟩
  have hshift (f : OpCode) : rdOf (rFormat rs rt rd sh f) = rd ∧ rtOf (rFormat rs rt rd sh f) = rt ∧
      shamtOf (rFormat rs rt rd sh f) = sh := ⟨rdOf_rFormat .., rtOf_rFormat .., shamtOf_rFormat ..⟩
  exact ⟨decodeWord_rFormat rfl (hregs _), decodeWord_rFormat rfl (hregs _), decodeWord_rFormat rfl (hregs _),
    decodeWord_rFormat rfl (hregs _), decodeWord_rFormat rfl (hregs _), decodeWord_rFormat rfl (hregs _),
    decodeWord_rFormat rfl (hregs _), decodeWord_rFormat rfl (hregs _),
    fun hp => decodeWord_rFormat (kindOfCode_functMul hp) (hregs _),
    decodeWord_rFormat rfl (hshift _), decodeWord_rFormat rfl (hshift _), decodeWord_rFormat rfl (hshift _),
    decodeWord_rFormat rfl (rsOf_rFormat ..), decodeWord_rFormat rfl trivial, decodeWord_rFormat rfl trivial⟩

/-! ### Encoding what was decoded -/

theorem rFormat_eq_iff_of_kind {p : Config.Params} {w : Word} {k : Kind} (h : kindOf p w = k) (hk : rKinds.contains k)
    (rs rt rd : RegId) (sh : Shamt) : rFormat rs rt rd sh (codeOfKind (rRows p) k) = w ↔
      rsOf w = rs ∧ rtOf w = rt ∧ rdOf w = rd ∧ shamtOf w = sh := by
  subst h
  obtain ⟨hop, hf⟩ := opcode_funct_of_kind (List.contains_iff_mem.mp hk)
  simp [rFormat_eq_iff hop, hf]

theorem encodeImm_fields {p : Config.Params} {w : Word} {k : Kind} (h : kindOf p w = k) (hk : opKinds.contains k) :
    encodeImm k (rsOf w) (rtOf w) (imm16Of w) = w := by
  subst h
  rw [encodeImm, ← opcode_of_kind (List.contains_iff_mem.mp hk), iFormat_fields]

theorem jFormat_addr {p : Config.Params} {w : Word} {k : Kind} (h : kindOf p w = k) (hk : opKinds.contains k) :
    jFormat (codeOfKind opRows k) (addr26Of w) = w := by
  subst h
  rw [← opcode_of_kind (List.contains_iff_mem.mp hk), jFormat_fields]

/-- Settles O4: a word of the kind and operands of `i` differs from the word of `i` at most in the fields that the
encoder writes as zero. -/
theorem encodeInvertsDecode : Obligations.EncodeInvertsDecode := by
  intro p w a i h
  obtain ⟨hk, ho⟩ := decode_eq_some_iff.mp h
  cases i with
  | move | nop | li | la => exact ho.elim
  | add | sub | and | or | xor | nor | slt | sltu | mul =>
    obtain ⟨rfl, rfl, rfl⟩ := ho
    exact (rFormat_eq_iff_of_kind hk rfl ..).trans (by simp [Machine.zeroedFieldsClear])
  | sll | srl | sra =>
    obtain ⟨rfl, rfl, rfl⟩ := ho
    exact (rFormat_eq_iff_of_kind hk rfl ..).trans (by simp [Machine.zeroedFieldsClear])
  | jr =>
    obtain rfl := ho
    exact (rFormat_eq_iff_of_kind hk rfl ..).trans (by simp [Machine.zeroedFieldsClear])
  | syscall | brk => exact rFormat_eq_iff_of_kind hk rfl ..
  | addi | slti | andi | ori | xori | lw | sw | beq | bne =>
    obtain ⟨rfl, rfl, rfl⟩ := ho
    exact iff_of_true (encodeImm_fields hk rfl) trivial
  | j | jal =>
    obtain rfl := ho
    exact iff_of_true (jFormat_addr hk rfl) trivial

/-- Settles O2: the seven words and the word of the unsupported `lui`, each decoded. -/
theorem specWordsDecode : Obligations.SpecWordsDecode := by
  unfold Obligations.SpecWordsDecode
  decide

end Sys2Proof
end

section
/-! The pseudo-instructions as the instructions they expand to (R96 to R99), each told by the one register it writes. -/

namespace Sys2Proof.Machine

/-- Settles O36: `move` adds register 0, which reads zero. -/
theorem moveCopiesRegister : Obligations.MoveCopiesRegister := by
  intro rd rs
  refine ⟨fun p => ⟨rfl, rfl⟩, fun s hz => writesReg_of_finishWith ?_⟩
  change s.finishWith rd (s.readReg rs + s.readReg 0#5) = _
  rw [hz, BitVec.add_zero]

/-- Settles O38: `li` and `la` add the sign-extended immediate to register 0, which reads zero. -/
theorem liAndLaLoadSignedConstant : Obligations.LiAndLaLoadSignedConstant := by
  intro rt imm
  refine ⟨fun p => ⟨rfl, rfl⟩, fun s hz => ?_⟩
  have hv : s.readReg 0#5 + sext32 imm = BitVec.ofInt 32 imm.toInt := by
    rw [hz, BitVec.zero_add, sext32_eq_ofInt]
  exact ⟨hv ▸ writesReg_of_finishWith rfl, hv ▸ writesReg_of_finishWith rfl⟩

/-- An instruction that writes to a register what it reads only advances, hard-wired register or not. -/
theorem goesTo_of_finishWith_readReg {i : Instr} {s : State} {r : RegId} (h : exec i s = s.finishWith r (s.readReg r)) :
    GoesTo i s (s.pc + 4#32) := by
  obtain ⟨t, ht, ⟨hset, hzero, hother⟩, hmem, hctl, hpc⟩ := writesReg_of_finishWith h
  refine ⟨t, ht, fun q => ?_, hmem, hctl, hpc⟩
  by_cases hq : q = r
  · subst hq
    cases hz : s.isHardZero q with
    | false => exact hset hz
    | true => exact (hzero hz).trans (readReg_hardZero hz).symm
  · exact hother q hq

/-- Settles O37: both shift register 0 by zero into itself. -/
theorem nopOnlyAdvances : Obligations.NopOnlyAdvances := by
  have hword : rFormat 0#5 0#5 0#5 0#5 0#6 = 0#32 := by decide
  refine ⟨fun p => ⟨hword, hword, toInstr_decode_zero p 0#32⟩, fun s => ?_⟩
  have hv : s.readReg 0#5 <<< (0#5).toNat = s.readReg 0#5 := BitVec.shiftLeft_zero _
  have hexec : exec (.sll 0#5 0#5 0#5) s = s.finishWith 0#5 (s.readReg 0#5) := congrArg (s.finishWith 0#5) hv
  exact ⟨goesTo_of_finishWith_readReg hexec, goesTo_of_finishWith_readReg hexec⟩

end Sys2Proof.Machine
end

section
/-! Branches and jumps assembled for a label (R85, R86): the assembler's field is the one with which the target of the
machine, and of the decoder, is the label's address. -/

namespace Sys2Proof.Machine

/-! ### Branches -/

theorem branchReaches_iff {a t : Word} : branchReaches a t = true ↔
    ((t.toNat : Int) - (a.toNat + 4)) % 4 = 0 ∧
      -32768 ≤ ((t.toNat : Int) - (a.toNat + 4)) / 4 ∧ ((t.toNat : Int) - (a.toNat + 4)) / 4 ≤ 32767 := by
  simp only [branchReaches, immLiteralOk, Bool.and_eq_true, decide_eq_true_eq]

/-- A distance of whole words within the field is an immediate whose branch lands on the label. -/
theorem exists_branchImm_of_reaches {a t : Word} (h : branchReaches a t = true) :
    ∃ imm, Asm.branchImm a t = .ok imm ∧ branchTarget a imm = t := by
  refine ⟨_, if_pos h, ?_⟩
  obtain ⟨hgrid, hlo, hhi⟩ := branchReaches_iff.mp h
  rw [branchTarget_eq_ofInt, BitVec.toInt_ofInt_eq_self (by decide) hlo (by omega),
    Int.mul_ediv_cancel_of_emod_eq_zero hgrid, add_sub_cancel, BitVec.ofInt_natCast, BitVec.ofNat_toNat,
    BitVec.setWidth_eq]

/-- Settles O55: the displayed target is the machine's, and both branches go there when taken. -/
theorem assembledBranchLandsOnItsLabel : Obligations.AssembledBranchLandsOnItsLabel := by
  intro a t
  refine ⟨fun h => if_neg (by simp [h]), fun h => ?_⟩
  obtain ⟨imm, himm, htarget⟩ := exists_branchImm_of_reaches h
  refine ⟨imm, himm, ?_⟩
  rintro rs rt s rfl
  refine ⟨?shown, fun heq => ?beq, fun hne => ?bne⟩
  case shown => exact (congrArg (branchTarget s.pc) (imm16Of_iFormat ..)).trans htarget
  case beq =>
    have hgo : GoesTo (.beq rs rt imm) s _ := goesTo_of_branchIf rfl
    simpa [heq, State.branchTarget, htarget] using hgo
  case bne =>
    have hgo : GoesTo (.bne rs rt imm) s _ := goesTo_of_branchIf rfl
    simpa [hne, State.branchTarget, htarget] using hgo

/-! ### Jumps -/

theorem jumpReaches_iff {a t : Word} : jumpReaches a t = true ↔
    t.extractLsb' 28 4 = a.extractLsb' 28 4 ∧ t.extractLsb' 0 2 = 0#2 := by
  simp only [jumpReaches, Bool.and_eq_true, beq_iff_eq]

/-- A word is its region bits, its word address and its two low bits. -/
theorem region_append_field_append_grid (t : Word) :
    t.extractLsb' 28 4 ++ t.extractLsb' 2 26 ++ t.extractLsb' 0 2 = t := by
  rw [BitVec.extractLsb'_append_extractLsb'_eq_extractLsb' (show 28 = 2 + 26 from rfl),
    BitVec.extractLsb'_append_extractLsb'_eq_extractLsb' (show 2 = 0 + 2 from rfl)]
  exact BitVec.extractLsb'_eq_self

/-- A label on the word grid of the jump's region is the target of the jump with its field. -/
theorem jumpTarget_of_reaches {a t : Word} (h : jumpReaches a t = true) : jumpTarget a (t.extractLsb' 2 26) = t := by
  obtain ⟨hregion, hgrid⟩ := jumpReaches_iff.mp h
  rw [jumpTarget_eq_append, ← hregion, ← hgrid, region_append_field_append_grid]

theorem wordAddress_eq_jumpTarget (t : Addr26) : wordAddress t = jumpTarget 0#32 t := by
  rw [jumpTarget, BitVec.zero_and, BitVec.zero_or]

/-- The displayed target has no region bits: it is the target of a jump in the lowest region (R77). -/
theorem jumpReaches_zero {a t : Word} (h : jumpReaches a t = true) (ht : t.toNat < 2 ^ 28) :
    jumpReaches 0#32 t = true := by
  refine jumpReaches_iff.mpr ⟨BitVec.eq_of_toNat_eq ?_, (jumpReaches_iff.mp h).2⟩
  rw [toNat_slice, Nat.div_eq_of_lt ht]
  rfl

/-- Settles O56: both jumps go to the target of `jumpTarget_of_reaches`, and the displayed one is that of region 0. -/
theorem assembledJumpLandsOnItsLabel : Obligations.AssembledJumpLandsOnItsLabel := by
  intro a t
  refine ⟨fun h => if_neg (by simp [h]), fun h => ⟨t.extractLsb' 2 26, if_pos h, ?_⟩⟩
  rintro s rfl
  refine ⟨?j, ⟨_, rfl, ?jal, ?link⟩, fun ht => ?shown⟩
  case j =>
    have hgo : GoesTo (.j (t.extractLsb' 2 26)) s (jumpTarget s.pc (t.extractLsb' 2 26)) := goesTo_of_redirect rfl
    rwa [jumpTarget_of_reaches h] at hgo
  case jal => exact jumpTarget_of_reaches h
  case link =>
    have hz : s.isHardZero 31#5 = false := by simp [State.isHardZero]
    simp [readReg_writeReg, linkReg, hz, returnAddress]
  case shown =>
    have hfield : wordAddress (t.extractLsb' 2 26) = t := by
      rw [wordAddress_eq_jumpTarget, jumpTarget_of_reaches (jumpReaches_zero h ht)]
    exact (congrArg wordAddress (addr26Of_jFormat ..)).trans hfield

end Sys2Proof.Machine
end

section
/-! The assembler's layout (R91 to R93): text lines every four keys, data cells without a gap. -/

namespace Sys2Proof.Asm

/-! ### Text -/

/-- Line `k + 1` from `base` on is line `k` from the address after `base` on (R91). -/
theorem textAddress_succ (base : Word) (k : Nat) : textAddress base (k + 1) = textAddress (base + 4#32) k := by
  rw [textAddress, textAddress, Nat.mul_succ, Nat.add_comm, BitVec.ofNat_add, BitVec.add_assoc]

/-- A label is bound to the address after all the instruction lines before it. -/
theorem mem_textSymbols_label (base : Word) (k : Nat) (before after : List TextItem) (n : String) :
    (n, textAddress base (k + (instrLines before).length)) ∈ textSymbols base k (before ++ .label n :: after) := by
  induction before generalizing k with
  | nil => exact List.mem_cons_self
  | cons item before ih =>
    cases item with
    | label m => exact List.mem_cons_of_mem _ (ih k)
    | instr i =>
      have hlen : k + (instrLines (.instr i :: before)).length = k + 1 + (instrLines before).length := by
        rw [instrLines, List.length_cons, Nat.add_right_comm, Nat.add_assoc]
      rw [hlen]
      exact ih (k + 1)

/-- Lines assemble when the first resolves where it stands and the others assemble from the next address on. -/
theorem encodeLines_cons {p : Config.Params} {f : LabelImm} {y : Symbols} {a : Word} {x : SourceInstr}
    {xs : List SourceInstr} {ws : List Word} (h : encodeLines p f y a (x :: xs) = .ok ws) :
    ∃ i ws', resolve f y a x = .ok i ∧ encodeLines p f y (a + 4#32) xs = .ok ws' ∧ ws = encode p i :: ws' := by
  rw [encodeLines] at h
  cases hi : resolve f y a x with
  | error e => simp [hi, bind, Except.bind] at h
  | ok i =>
    cases hws : encodeLines p f y (a + 4#32) xs with
    | error e => simp [hi, hws, bind, Except.bind] at h
    | ok ws' =>
      simp only [hi, hws, bind, Except.bind, Except.ok.injEq] at h
      exact ⟨i, ws', rfl, rfl, h.symm⟩

theorem encodeLines_length {p : Config.Params} {f : LabelImm} {y : Symbols} {a : Word} {xs : List SourceInstr}
    {ws : List Word} (h : encodeLines p f y a xs = .ok ws) : ws.length = xs.length := by
  induction xs generalizing a ws with
  | nil =>
    obtain rfl := Except.ok.inj h
    rfl
  | cons x xs ih =>
    obtain ⟨i, ws', -, hws, rfl⟩ := encodeLines_cons h
    rw [List.length_cons, List.length_cons, ih hws]

/-- The `k`-th line is resolved and encoded at the `k`-th address (R91). -/
theorem encodeLines_getElem {p : Config.Params} {f : LabelImm} {y : Symbols} {a : Word} {xs : List SourceInstr}
    {ws : List Word} (h : encodeLines p f y a xs = .ok ws) {k : Nat} {x : SourceInstr} (hx : xs[k]? = some x) :
    ∃ i, resolve f y (textAddress a k) x = .ok i ∧ ws[k]? = some (encode p i) := by
  induction xs generalizing a ws k with
  | nil => simp at hx
  | cons x' xs ih =>
    obtain ⟨i, ws', hi, hws, rfl⟩ := encodeLines_cons h
    cases k with
    | zero =>
      obtain rfl := Option.some.inj hx
      exact ⟨i, by rw [textAddress, Nat.mul_zero, BitVec.add_zero, hi], rfl⟩
    | succ k =>
      rw [textAddress_succ]
      exact ih hws hx

/-- Settles O57: labels by the lines before them, lines by their place. -/
theorem textLayoutIsFourPerLine : Obligations.TextLayoutIsFourPerLine := by
  refine ⟨fun base before after n => ?label, fun p f y base xs ws h => ?lines⟩
  case label => simpa [textAddress] using mem_textSymbols_label base 0 before after n
  case lines => exact ⟨encodeLines_length h, fun k x hx => encodeLines_getElem h hx⟩

/-! ### Data -/

theorem cellsFrom_length (stride a : Word) (vs : List Word) : (cellsFrom stride a vs).length = vs.length := by
  induction vs generalizing a with
  | nil => rfl
  | cons v vs ih => rw [cellsFrom, List.length_cons, List.length_cons, ih]

/-- Value `k` stands `k` strides further. -/
theorem cellsFrom_getElem (n : Nat) (a : Word) {vs : List Word} {k : Nat} {v : Word} (h : vs[k]? = some v) :
    (cellsFrom (BitVec.ofNat 32 n) a vs)[k]? = some (a + BitVec.ofNat 32 (n * k), v) := by
  induction vs generalizing a k with
  | nil => simp at h
  | cons v' vs ih =>
    cases k with
    | zero =>
      obtain rfl := Option.some.inj h
      simp [cellsFrom]
    | succ k =>
      rw [cellsFrom, List.getElem?_cons_succ, ih _ h, BitVec.add_assoc, ← BitVec.ofNat_add, Nat.mul_succ,
        Nat.add_comm n]

/-- A character's cell stands as far from the frontier as characters are before it (R93). -/
theorem asciizCells_getElem (a : Word) {cps : List Word} {k : Nat} {v : Word} (h : (cps ++ [0#32])[k]? = some v) :
    ((DataItem.asciiz cps).cells a)[k]? = some (a + BitVec.ofNat 32 k, v) := by
  simpa [DataItem.cells] using cellsFrom_getElem 1 a h

/-- What stands behind a declaration is laid out from the frontier after it, a label taking no key (R92, R93). -/
theorem dataCells_append (a : Word) (before after : List DataItem) :
    dataCells a (before ++ after) = dataCells a before ++ dataCells (dataFrontier a before) after := by
  induction before generalizing a with
  | nil => rfl
  | cons d before ih => rw [List.cons_append, dataCells, dataCells, dataFrontier, ih, List.append_assoc]

theorem dataSymbols_append (a : Word) (before after : List DataItem) :
    dataSymbols a (before ++ after) = dataSymbols a before ++ dataSymbols (dataFrontier a before) after := by
  induction before generalizing a with
  | nil => rfl
  | cons d before ih =>
    cases d with
    | label n =>
      have hsize : a + (DataItem.label n).size = a := BitVec.add_zero a
      rw [List.cons_append, dataSymbols, dataSymbols, dataFrontier, hsize, ih, List.cons_append]
    | word vs => exact ih _
    | asciiz cps => exact ih _

/-- Settles O58: the cells of each declaration by their place, and the rest from the frontier behind it. -/
theorem dataLayoutIsContiguous : Obligations.DataLayoutIsContiguous := by
  intro a vs before after n
  refine ⟨fun k v h => ⟨cellsFrom_getElem 4 a h, asciizCells_getElem a ?char⟩, cellsFrom_length .., ?terminator,
    ?asciizLength, rfl, rfl, ?label, dataCells_append a before after⟩
  case char =>
    obtain ⟨hk, -⟩ := List.getElem?_eq_some_iff.mp h
    rw [List.getElem?_append_left hk, h]
  case terminator => exact asciizCells_getElem a (by simp)
  case asciizLength => exact (cellsFrom_length ..).trans (by simp)
  case label =>
    rw [dataSymbols_append]
    exact List.mem_append_right _ List.mem_cons_self

end Sys2Proof.Asm
end

section
/-! Register-register arithmetic, logic, compare and multiply (R110 to R118): the word of each instruction, and the one
register it writes. -/

namespace Sys2Proof.Machine

/-! ### The word of an instruction, read back -/

/-- The word of a machine instruction decodes to it under every parameter when it is of its kind under every one. -/
theorem encodedAs_of_encode {i : Instr} {w : Word} (hi : i.wf = true) (hw : ∀ p, encode p i = w)
    (hk : ∀ p, kindOf p w = i.kind) : EncodedAs i w := by
  intro p a
  have ho : OperandsIn w i := by simpa only [hw, expand_of_wf hi] using operandsIn_encode p i
  exact ⟨hw p, decode_eq_some_iff.mpr ⟨hk p, ho⟩⟩

/-! ### Sums, differences and products of readings -/

/-- The difference of the signed readings wraps to the difference of the words. -/
theorem ofInt_toInt_sub_toInt (x y : Word) : BitVec.ofInt 32 (x.toInt - y.toInt) = x - y := by
  rw [Int.sub_eq_add_neg, BitVec.ofInt_add, BitVec.ofInt_neg, BitVec.ofInt_toInt, BitVec.ofInt_toInt,
    BitVec.sub_eq_add_neg]

/-- The product of the unsigned readings wraps to the product of the words. -/
theorem ofNat_toNat_mul_toNat (x y : Word) : BitVec.ofNat 32 (x.toNat * y.toNat) = x * y := by
  rw [BitVec.ofNat_mul, BitVec.ofNat_toNat, BitVec.ofNat_toNat, BitVec.setWidth_eq, BitVec.setWidth_eq]

/-- The product of the signed readings wraps to the product of the words. -/
theorem ofInt_toInt_mul_toInt (x y : Word) : BitVec.ofInt 32 (x.toInt * y.toInt) = x * y := by
  rw [BitVec.ofInt_mul, BitVec.ofInt_toInt, BitVec.ofInt_toInt]

/-! ### Arithmetic and multiply (R110, R111, R118) -/

/-- Settles O8: the sum of two words is that of their unsigned readings, wrapped. -/
theorem addWritesWrappedSum : Obligations.AddWritesWrappedSum := by
  intro rd rs rt
  refine ⟨encodedAs_of_encode rfl (fun _ => rfl) (fun _ => kindOf_rFormat ..), fun s => ?_⟩
  rw [← BitVec.add_def]
  exact writesReg_of_finishWith rfl

/-- Settles O9: the difference of two words is that of their signed readings, wrapped. -/
theorem subWritesWrappedDifference : Obligations.SubWritesWrappedDifference := by
  intro rd rs rt
  refine ⟨encodedAs_of_encode rfl (fun _ => rfl) (fun _ => kindOf_rFormat ..), fun s => ?_⟩
  rw [ofInt_toInt_sub_toInt]
  exact writesReg_of_finishWith rfl

/-- Settles O16: the decoder inverts the encoder when `FUNCT_MUL` is admissible, and both readings of the product wrap
to one word. -/
theorem mulWritesLowProduct : Obligations.MulWritesLowProduct := by
  intro rd rs rt
  refine ⟨fun p a hp => ?word, fun s => ?product⟩
  case word =>
    obtain ⟨hdecode, -⟩ := decodeInvertsEncode p (.mul rd rs rt) a hp
    exact ⟨rfl, hdecode⟩
  case product =>
    rw [ofNat_toNat_mul_toNat, ofInt_toInt_mul_toInt, and_self]
    exact writesReg_of_finishWith rfl

/-! ### Logic, bit by bit (R112 to R115) -/

/-- Settles O10: each bit of a conjunction is the conjunction of the bits. -/
theorem andWritesBitwiseAnd : Obligations.AndWritesBitwiseAnd := by
  intro rd rs rt
  refine ⟨encodedAs_of_encode rfl (fun _ => rfl) (fun _ => kindOf_rFormat ..), fun s => ?_⟩
  exact ⟨_, writesReg_of_finishWith rfl, fun _ => BitVec.getLsbD_and⟩

/-- Settles O11: each bit of a disjunction is the disjunction of the bits. -/
theorem orWritesBitwiseOr : Obligations.OrWritesBitwiseOr := by
  intro rd rs rt
  refine ⟨encodedAs_of_encode rfl (fun _ => rfl) (fun _ => kindOf_rFormat ..), fun s => ?_⟩
  exact ⟨_, writesReg_of_finishWith rfl, fun _ => BitVec.getLsbD_or⟩

/-- Settles O12: each bit of an exclusive disjunction is that of the bits. -/
theorem xorWritesBitwiseXor : Obligations.XorWritesBitwiseXor := by
  intro rd rs rt
  refine ⟨encodedAs_of_encode rfl (fun _ => rfl) (fun _ => kindOf_rFormat ..), fun s => ?_⟩
  exact ⟨_, writesReg_of_finishWith rfl, fun _ => BitVec.getLsbD_xor⟩

theorem getLsbD_not_or (x y : Word) {n : Nat} (hn : n < 32) :
    (~~~(x ||| y)).getLsbD n = !(x.getLsbD n || y.getLsbD n) := by
  rw [BitVec.getLsbD_not, decide_eq_true hn, Bool.true_and, BitVec.getLsbD_or]

/-- Settles O13: within the 32 bits of a word, complementing complements each bit. -/
theorem norWritesComplementOfOr : Obligations.NorWritesComplementOfOr := by
  intro rd rs rt
  refine ⟨encodedAs_of_encode rfl (fun _ => rfl) (fun _ => kindOf_rFormat ..), fun s => ?_⟩
  exact ⟨_, writesReg_of_finishWith rfl, fun _ => getLsbD_not_or _ _⟩

/-! ### Compare (R116, R117) -/

/-- The word of a decided comparison. -/
theorem truthWord_decide (P : Prop) [Decidable P] : truthWord (decide P) = if P then 1#32 else 0#32 := by
  simp only [truthWord, decide_eq_true_eq]

/-- Settles O14: `signedLess` decides the order of the signed readings. -/
theorem sltComparesSigned : Obligations.SltComparesSigned := by
  intro rd rs rt
  refine ⟨encodedAs_of_encode rfl (fun _ => rfl) (fun _ => kindOf_rFormat ..), fun s => ?_⟩
  rw [← truthWord_decide]
  exact writesReg_of_finishWith rfl

/-- Settles O15: `unsignedLess` decides the order of the unsigned readings. -/
theorem sltuComparesUnsigned : Obligations.SltuComparesUnsigned := by
  intro rd rs rt
  refine ⟨encodedAs_of_encode rfl (fun _ => rfl) (fun _ => kindOf_rFormat ..), fun s => ?_⟩
  rw [← truthWord_decide]
  exact writesReg_of_finishWith rfl

end Sys2Proof.Machine
end

section
/-! Shifts by a constant (R120 to R123): the word of each instruction, and the one register it writes. -/

namespace Sys2Proof.Machine

/-! ### Shifts as multiplication and division by a power of two -/

/-- The unsigned reading times `2 ^ n` wraps to the left shift. -/
theorem ofNat_toNat_mul_two_pow (x : Word) (n : Nat) : BitVec.ofNat 32 (x.toNat * 2 ^ n) = x <<< n :=
  BitVec.eq_of_toNat_eq (by rw [BitVec.toNat_ofNat, BitVec.toNat_shiftLeft, Nat.shiftLeft_eq])

/-- The unsigned reading over `2 ^ n` is that of the logical right shift. -/
theorem ofNat_toNat_div_two_pow (x : Word) (n : Nat) : BitVec.ofNat 32 (x.toNat / 2 ^ n) = x >>> n := by
  rw [← Nat.shiftRight_eq_div_pow, ← BitVec.toNat_ushiftRight, BitVec.ofNat_toNat, BitVec.setWidth_eq]

/-- The signed reading over `2 ^ n`, rounded down, is that of the arithmetic right shift. -/
theorem ofInt_toInt_fdiv_two_pow (x : Word) (n : Nat) :
    BitVec.ofInt 32 (x.toInt.fdiv (2 ^ n)) = x.sshiftRight n := by
  have hfloor : x.toInt.fdiv (2 ^ n) = (x.sshiftRight n).toInt := by
    rw [Int.fdiv_eq_ediv_of_nonneg _ (by positivity), BitVec.toInt_sshiftRight, Int.shiftRight_eq_div_pow,
      Nat.cast_pow, Nat.cast_ofNat]
  rw [hfloor, BitVec.ofInt_toInt]

/-! ### The three instructions (R120 to R122) -/

/-- Settles O17: a left shift multiplies the unsigned reading, wrapped. -/
theorem sllMultipliesByPowerOfTwo : Obligations.SllMultipliesByPowerOfTwo := by
  intro rd rt sh
  refine ⟨encodedAs_of_encode rfl (fun _ => rfl) (fun _ => kindOf_rFormat ..), fun s => ?_⟩
  rw [ofNat_toNat_mul_two_pow]
  exact writesReg_of_finishWith rfl

/-- Settles O18: a logical right shift divides the unsigned reading. -/
theorem srlDividesUnsigned : Obligations.SrlDividesUnsigned := by
  intro rd rt sh
  refine ⟨encodedAs_of_encode rfl (fun _ => rfl) (fun _ => kindOf_rFormat ..), fun s => ?_⟩
  rw [ofNat_toNat_div_two_pow]
  exact writesReg_of_finishWith rfl

/-- Settles O19: an arithmetic right shift divides the signed reading with floor. -/
theorem sraDividesSigned : Obligations.SraDividesSigned := by
  intro rd rt sh
  refine ⟨encodedAs_of_encode rfl (fun _ => rfl) (fun _ => kindOf_rFormat ..), fun s => ?_⟩
  rw [ofInt_toInt_fdiv_two_pow]
  exact writesReg_of_finishWith rfl

end Sys2Proof.Machine
end

section
/-! Loads and stores (R130 to R132): the effective address, the word of each instruction, and the register or the cell
it writes. -/

namespace Sys2Proof.Machine

/-! ### The effective address (R132) -/

/-- A sign-extended immediate is small, or close below `2^32`. -/
theorem sext32_window (v : Imm16) : (sext32 v).toNat < 2 ^ 15 ∨ 2 ^ 32 - 2 ^ 15 ≤ (sext32 v).toNat := by
  have hrange := v.isLt
  have hsigned : (sext32 v).toInt = v.toInt := sext32_toInt v
  rw [BitVec.toInt_eq_toNat_cond, BitVec.toInt_eq_toNat_cond] at hsigned
  omega

/-- A hard-wired register 0 as base leaves the displacement alone. -/
theorem effectiveAddress_hardZero {s : State} (imm : Imm16) (h : s.params.zeroRegHardwired = true) :
    s.effectiveAddress 0#5 imm = sext32 imm := by
  have hz : s.readReg 0#5 = 0#32 := readReg_hardZero (by simp [State.isHardZero, h])
  rw [State.effectiveAddress, hz, BitVec.zero_add]

/-! ### What a load and a store do (R130, R131) -/

theorem memRead_of_present {s : State} {a w : Word} (h : Mem.lookup s.mem a.toNat = some w) : s.memRead a = w := by
  rw [State.memRead, h, Option.getD_some]

theorem memRead_of_absent {s : State} {a : Word} (h : Mem.lookup s.mem a.toNat = none) : s.memRead a = 0#32 := by
  rw [State.memRead, h, Option.getD_none]

/-- A load writes the word read at its effective address, and nothing but that register. -/
theorem lw_writesReg (rt rs : RegId) (imm : Imm16) (s : State) :
    WritesReg (.lw rt rs imm) s rt (s.memRead (s.effectiveAddress rs imm)) := writesReg_of_finishWith rfl

/-- A store is one `memWrite` at its effective address. -/
theorem exec_sw_eq (rt rs : RegId) (imm : Imm16) (s : State) :
    exec (.sw rt rs imm) s = .next (s.memWrite (s.effectiveAddress rs imm) (s.readReg rt)).advance := rfl

/-- A fetch at the key just written finds the word: instructions and data share one store (R55). -/
theorem fetch_of_onlyKeyWritten {s t : State} {a v : Word} (h : OnlyKeyWritten s t a v) (hpc : t.pc = a) :
    t.fetch = some v := by
  obtain ⟨hpresent, -⟩ := h
  rw [State.fetch, hpc, hpresent]

/-- Settles O25: the displacement is signed and the sum wraps; a load writes its destination alone, a store no
register. -/
theorem effectiveAddressWraps : Obligations.EffectiveAddressWraps := by
  intro s rs imm
  refine ⟨effectiveAddress_eq s rs imm, fun hz => ?window, fun rt => ⟨?store, ?load⟩⟩
  case window =>
    rw [effectiveAddress_hardZero imm hz]
    exact sext32_window imm
  case store => exact ⟨_, exec_sw_eq rt rs imm s, by rw [readReg_advance, readReg_memWrite]⟩
  case load =>
    obtain ⟨t, ht, ⟨-, -, hother⟩, -⟩ := lw_writesReg rt rs imm s
    exact ⟨t, ht, fun hne => hother rs hne.symm⟩

/-- Settles O26: a load writes what `memRead` reads, the cell's word or zero. -/
theorem lwReadsExactKey : Obligations.LwReadsExactKey := by
  intro rt rs imm
  refine ⟨encodedAs_of_encode rfl (fun _ => rfl) (fun p => kindOf_iFormat p rs rt imm (by decide)), fun s => ?_⟩
  have hload := lw_writesReg rt rs imm s
  split
  · next w hw => rwa [memRead_of_present hw] at hload
  · next hw => rwa [memRead_of_absent hw] at hload

/-- Settles O27: a store writes its key alone, and a fetch at that key finds the word. -/
theorem swWritesExactKey : Obligations.SwWritesExactKey := by
  intro rt rs imm
  refine ⟨encodedAs_of_encode rfl (fun _ => rfl) (fun p => kindOf_iFormat p rs rt imm (by decide)), fun s => ?_⟩
  have hkey := exec_sw_onlyKeyWritten (exec_sw_eq rt rs imm s)
  exact ⟨_, exec_sw_eq rt rs imm s, fun _ => by rw [readReg_advance, readReg_memWrite], hkey, ⟨rfl, rfl⟩, rfl,
    fun hnext => fetch_of_onlyKeyWritten hkey hnext.symm⟩

end Sys2Proof.Machine
end

section
/-! Register-immediate arithmetic, compare and logic (R140 to R144): the word of each instruction, and the one register
it writes. -/

namespace Sys2Proof.Machine

/-- The I-type word of an instruction whose opcode the opcode map gives its kind (R62, R73). -/
theorem encodedAs_iFormat {i : Instr} {op : OpCode} {rs rt : RegId} {imm : Imm16} (hi : i.wf = true)
    (hw : ∀ p, encode p i = iFormat op rs rt imm) (hop : op ≠ 0b000000#6) (hk : kindOfCode opRows op = i.kind) :
    EncodedAs i (iFormat op rs rt imm) :=
  encodedAs_of_encode hi hw fun p => (kindOf_iFormat p rs rt imm hop).trans hk

/-! ### The sign-extended immediate (R140, R141) -/

/-- Settles O20: the sum with the sign-extended immediate is that with its signed reading, wrapped. -/
theorem addiAddsSignedImmediate : Obligations.AddiAddsSignedImmediate := by
  intro rt rs imm
  refine ⟨encodedAs_iFormat rfl (fun _ => rfl) (by decide) rfl, fun s => ?_⟩
  rw [← add_sext32]
  exact writesReg_of_finishWith rfl

/-- Settles O21: sign extension keeps the signed reading, whose order `signedLess` decides. -/
theorem sltiComparesSignedImmediate : Obligations.SltiComparesSignedImmediate := by
  intro rt rs imm
  refine ⟨encodedAs_iFormat rfl (fun _ => rfl) (by decide) rfl, fun s => ?_⟩
  rw [← sext32_toInt imm, ← truthWord_decide]
  exact writesReg_of_finishWith rfl

/-! ### The zero-extended immediate, bit by bit (R142 to R144) -/

/-- Settles O22: the zero-extended immediate has no bit from 16 on, so neither has the conjunction. -/
theorem andiMasksToSixteenBits : Obligations.AndiMasksToSixteenBits := by
  intro rt rs imm
  refine ⟨encodedAs_iFormat rfl (fun _ => rfl) (by decide) rfl, fun s => ?_⟩
  exact ⟨_, writesReg_of_finishWith rfl, fun n => by rw [BitVec.getLsbD_and, zext32_getLsbD]⟩

/-- Settles O23: the zero-extended immediate sets no bit from 16 on. -/
theorem oriKeepsHighBits : Obligations.OriKeepsHighBits := by
  intro rt rs imm
  refine ⟨encodedAs_iFormat rfl (fun _ => rfl) (by decide) rfl, fun s => ?_⟩
  exact ⟨_, writesReg_of_finishWith rfl, fun n => by rw [BitVec.getLsbD_or, zext32_getLsbD]⟩

/-- Settles O24: the zero-extended immediate flips no bit from 16 on. -/
theorem xoriKeepsHighBits : Obligations.XoriKeepsHighBits := by
  intro rt rs imm
  refine ⟨encodedAs_iFormat rfl (fun _ => rfl) (by decide) rfl, fun s => ?_⟩
  exact ⟨_, writesReg_of_finishWith rfl, fun n => by rw [BitVec.getLsbD_xor, zext32_getLsbD]⟩

end Sys2Proof.Machine
end

section
/-! Branches, jumps, call and return (R150 to R156): the word of each instruction, its target in exact integers or as a
concatenation, and the one register a call writes. -/

namespace Sys2Proof.Machine

/-! ### Branches (R150 to R152) -/

/-- Where a branch goes when it is taken and when it is not, in exact integers, wrapped (R67, R150). -/
theorem goesTo_of_branchIf_branchTarget {i : Instr} {s : State} {taken : Bool} {imm : Imm16}
    (h : exec i s = s.branchIf taken (s.branchTarget imm)) :
    (taken = true → GoesTo i s (BitVec.ofInt 32 (s.pc.toNat + 4 + imm.toInt * 4))) ∧
    (taken = false → GoesTo i s (BitVec.ofNat 32 (s.pc.toNat + 4))) := by
  have hgo := goesTo_of_branchIf h
  rw [Int.mul_comm, ← branchTarget_eq_ofInt, ← add_four_eq_ofNat]
  constructor <;> rintro rfl <;> exact hgo

/-- Settles O28: the branch is taken when the comparison of the two readings answers true. -/
theorem beqBranchesOnEqual : Obligations.BeqBranchesOnEqual := by
  intro rs rt imm
  refine ⟨encodedAs_iFormat rfl (fun _ => rfl) (by decide) rfl, fun s => ?_⟩
  obtain ⟨htaken, hnot⟩ := goesTo_of_branchIf_branchTarget (i := .beq rs rt imm) (s := s) rfl
  exact ⟨fun heq => htaken (beq_iff_eq.mpr heq), fun hne => hnot (beq_eq_false_iff_ne.mpr hne)⟩

/-- Settles O29: the branch is taken when the comparison of the two readings answers false. -/
theorem bneBranchesOnDifferent : Obligations.BneBranchesOnDifferent := by
  intro rs rt imm
  refine ⟨encodedAs_iFormat rfl (fun _ => rfl) (by decide) rfl, fun s => ?_⟩
  obtain ⟨htaken, hnot⟩ := goesTo_of_branchIf_branchTarget (i := .bne rs rt imm) (s := s) rfl
  exact ⟨fun hne => htaken (bne_iff_ne.mpr hne), fun heq => hnot (bne_eq_false_iff_eq.mpr heq)⟩

/-! ### Jumps and calls (R153, R154) -/

/-- The J-type word of an instruction whose opcode the opcode map gives its kind (R63, R73). -/
theorem encodedAs_jFormat {i : Instr} {op : OpCode} {t : Addr26} (hi : i.wf = true)
    (hw : ∀ p, encode p i = jFormat op t) (hop : op ≠ 0b000000#6) (hk : kindOfCode opRows op = i.kind) :
    EncodedAs i (jFormat op t) :=
  encodedAs_of_encode hi hw fun p => (kindOf_jFormat p t hop).trans hk

/-- Register 31 is never hard-wired: it reads what was written to it. -/
theorem readReg_writeReg_linkReg (s : State) (v : Word) : (s.writeReg linkReg v).readReg linkReg = v := by
  have hsoft : s.isHardZero linkReg = false := by simp [State.isHardZero, linkReg]
  simp [readReg_writeReg, hsoft]

/-- Settles O30: masking and or-ing the target is the concatenation. -/
theorem jGoesToTarget : Obligations.JGoesToTarget := by
  intro addr
  refine ⟨encodedAs_jFormat rfl (fun _ => rfl) (by decide) rfl, fun s => ?_⟩
  rw [← jumpTarget_eq_append]
  exact goesTo_of_redirect rfl

/-- Settles O31: a write to register 31 and a redirect, each with its own frame. -/
theorem jalLinksAndGoesToTarget : Obligations.JalLinksAndGoesToTarget := by
  intro addr
  refine ⟨encodedAs_jFormat rfl (fun _ => rfl) (by decide) rfl, fun s => ?_⟩
  refine ⟨_, rfl, ?link, fun q hq => ?others, fun a => ?mem, ?control, jumpTarget_eq_append ..⟩
  case link => exact (readReg_writeReg_linkReg ..).trans (add_four_eq_ofNat _)
  case others => exact readReg_writeReg_other s _ hq
  case mem => rw [redirect_mem, writeReg_mem]
  case control => exact ⟨writeReg_runState .., writeReg_params ..⟩

/-! ### Return (R155, R156) -/

/-- Settles O32: the funct alone makes the word a `jr`, whose redirect goes to the reading of its register. -/
theorem jrGoesToRegister : Obligations.JrGoesToRegister := by
  intro rs
  refine ⟨encodedAs_of_encode rfl (fun _ => rfl) (fun _ => kindOf_rFormat ..), fun p rt rd sh a => ?_, fun s => ?_⟩
  · exact decodeWord_rFormat rfl (rsOf_rFormat ..)
  · exact goesTo_of_redirect rfl

/-- Settles O33: `jr` goes to the address that `jal` linked, and neither touches anything else. -/
theorem callReturnsBehindTheCall : Obligations.CallReturnsBehindTheCall := by
  intro addr s
  obtain ⟨-, hjal⟩ := jalLinksAndGoesToTarget addr
  obtain ⟨-, -, hjr⟩ := jrGoesToRegister 31#5
  obtain ⟨t, ht, hlink, hothers, hmem, ⟨hrun, hparams⟩, -⟩ := hjal s
  obtain ⟨u, hu, hregs', hmem', ⟨hrun', hparams'⟩, hpc'⟩ := hjr t
  have hreturn : u.pc = s.pc + 4#32 := by rw [hpc', hlink, add_four_eq_ofNat]
  exact ⟨t, u, ht, hu, hreturn, fun a => (hmem' a).trans (hmem a), ⟨hrun'.trans hrun, hparams'.trans hparams⟩,
    fun q hq => (hregs' q).trans (hothers q hq)⟩

end Sys2Proof.Machine
end

section
/-! System instructions and unrecognized words (R160 to R162): one shared operation, which advances the pc or halts by
the policy it is given. -/

namespace Sys2Proof.Machine

/-! ### System instructions (R160, R161) -/

/-- The word of a system instruction has every field but the funct zero (R83). -/
theorem encodedAs_system {i : Instr} {f : OpCode} (hi : i.wf = true)
    (hw : ∀ p, encode p i = rFormat 0#5 0#5 0#5 0#5 f) (hk : ∀ p, kindOfCode (rRows p) f = i.kind) :
    EncodedAs i (rFormat 0#5 0#5 0#5 0#5 f) :=
  encodedAs_of_encode hi hw fun p => (kindOf_rFormat ..).trans (hk p)

theorem exec_system {i : Instr} (hi : i = .syscall ∨ i = .brk) (s : State) :
    exec i s = s.underPolicy s.params.systemPolicy := by
  obtain rfl | rfl := hi <;> rfl

/-- Settles O34: `underPolicy` is a redirect to `pc + 4` under `nop`, and `halt` alone under `halt`. -/
theorem systemInstructionsFollowPolicy : Obligations.SystemInstructionsFollowPolicy := by
  refine ⟨encodedAs_system (f := 0b001100#6) rfl (fun _ => rfl) fun _ => rfl,
    encodedAs_system (f := 0b001101#6) rfl (fun _ => rfl) fun _ => rfl, fun i s hi => ⟨?nop, ?halt⟩⟩
  case nop =>
    intro hp
    exact goesTo_of_redirect (t := s.pc + 4#32) (by rw [exec_system hi, hp]; rfl)
  case halt =>
    intro hp
    have hexec : exec i s = .next s.halt := by rw [exec_system hi, hp]; rfl
    exact ⟨s.halt, hexec, readReg_halt s, fun _ => rfl, rfl, rfl, rfl⟩

/-! ### Unrecognized words (R162) -/

/-- A halt where a word stands at the pc is classed as a policy's (R184). -/
theorem runClass_halt_of_present {s : State} {w : Word} (hf : s.fetch = some w) :
    s.halt.runClass = .stoppedByPolicy w := by
  have hfetch : s.halt.fetch = some w := hf
  simp [State.runClass, hfetch]

/-- Settles O35: the step of an unrecognized word is `underPolicy`, whose halt finds the word still at the pc. -/
theorem unrecognizedWordsFollowPolicy : Obligations.UnrecognizedWordsFollowPolicy := by
  intro s w hr hf hk
  have hstep : step s = s.underPolicy s.params.unrecognizedPolicy :=
    step_of_unrecognized hr hf ((toInstr_eq_none_iff _).mpr hk)
  obtain ⟨hp, hu⟩ | ⟨hp, hu⟩ := underPolicy_cases s s.params.unrecognizedPolicy
  · exact ⟨s.advance, hstep.trans hu, readReg_advance s, fun _ => rfl, rfl, fun _ => ⟨rfl, hr⟩,
      fun hh => by simp [hp] at hh⟩
  · exact ⟨s.halt, hstep.trans hu, readReg_halt s, fun _ => rfl, rfl, fun hn => by simp [hp] at hn,
      fun _ => ⟨rfl, rfl, runClass_halt_of_present hf⟩⟩

end Sys2Proof.Machine
end

section
/-! The class of a halt (R184): a machine halts by reaching an absent key, its normal end, or by a policy, and the cell
at the pc tells which. -/

namespace Sys2Proof.Machine

/-- A halt where no word stands at the pc is the normal end of the run (R184). -/
theorem runClass_halt_of_absent {s : State} (hf : s.fetch = none) : s.halt.runClass = .finished s.pc := by
  have hfetch : s.halt.fetch = none := hf
  simp [State.runClass, hfetch]

/-- Each cause of R28 fixes the class of its halt; the two causes that find a word at the pc are policies (R184). -/
theorem runClass_halt_of_haltCause {s : State} (hc : s.HaltCause) :
    (s.fetch = none ∧ s.halt.runClass = .finished s.pc) ∨
    (∃ w, s.fetch = some w ∧ s.halt.runClass = .stoppedByPolicy w ∧
      (s.params.systemPolicy = .halt ∨ s.params.unrecognizedPolicy = .halt)) := by
  obtain hf | ⟨w, hf, -, hp⟩ | ⟨w, hf, -, hp⟩ := hc
  · exact .inl ⟨hf, runClass_halt_of_absent hf⟩
  · exact .inr ⟨w, hf, runClass_halt_of_present hf, .inr hp⟩
  · exact .inr ⟨w, hf, runClass_halt_of_present hf, .inl hp⟩

/-- Settles O41: the step is total; a halted machine steps to itself, and a running one halts only for a cause of R28,
by `halt` alone. -/
theorem stepIsTotalAndHaltsAreClassed : Obligations.StepIsTotalAndHaltsAreClassed := by
  intro s
  obtain ⟨t, h⟩ := exists_step_eq_next s
  refine ⟨t, h, ?halted, ?running⟩
  case halted =>
    intro hr
    exact (Host.Outcome.next.inj ((step_of_halted hr).symm.trans h)).symm
  case running =>
    intro hr ht
    obtain ⟨hc, rfl⟩ | ⟨-, hrun⟩ := running_step_cases hr h
    · exact runClass_halt_of_haltCause hc
    · simp [hrun] at ht

end Sys2Proof.Machine
end

section
/-! Reset and the loaded image (R190 to R193): a load is a sequence of memory writes, so it keeps what every memory
write keeps, and each word of a loaded text is found at the address of its line. -/

namespace Sys2Proof.Asm

/-! ### The address of a line -/

theorem textAddress_zero (a : Word) : textAddress a 0 = a := by
  rw [textAddress, Nat.mul_zero, BitVec.add_zero]

/-- No later line of a text that fits in the address space stands at the address of its first. -/
theorem textAddress_succ_ne (a : Word) {k : Nat} (hk : 4 * (k + 1) < 2 ^ 32) : textAddress a (k + 1) ≠ a := by
  intro h
  have hmod := congrArg BitVec.toNat h
  rw [textAddress, BitVec.toNat_add, BitVec.toNat_ofNat] at hmod
  omega

/-- Below the top of the address space the address of a line does not wrap. -/
theorem toNat_textAddress {a : Word} {k : Nat} (hk : a.toNat + 4 * k < 2 ^ 32) :
    (textAddress a k).toNat = a.toNat + 4 * k := by
  rw [textAddress, BitVec.toNat_add, BitVec.toNat_ofNat]
  omega

end Sys2Proof.Asm

namespace Sys2Proof.Machine

/-! ### What every load keeps -/

/-- What every memory write keeps, loading a text keeps. -/
theorem loadWordsAt_keeps {P : State → Prop} (hP : ∀ s a v, P s → P (s.memWrite a v)) {s : State} (a : Word)
    (ws : List Word) (h : P s) : P (s.loadWordsAt a ws) := by
  induction ws generalizing s a with
  | nil => exact h
  | cons w ws ih => exact ih (a + 4#32) (hP s a w h)

/-- What every memory write keeps, loading data cells keeps. -/
theorem loadCells_keeps {P : State → Prop} (hP : ∀ s a v, P s → P (s.memWrite a v)) {s : State}
    (cells : List (Word × Word)) (h : P s) : P (s.loadCells cells) := by
  induction cells generalizing s with
  | nil => exact h
  | cons cell cells ih => exact ih (hP s cell.1 cell.2 h)

/-- Loading a text changes nothing but the memory (R192). -/
theorem loadWordsAt_frame (s : State) (a : Word) (ws : List Word) :
    RegsKept s (s.loadWordsAt a ws) ∧ (s.loadWordsAt a ws).pc = s.pc ∧ ControlKept s (s.loadWordsAt a ws) :=
  loadWordsAt_keeps (P := fun t => RegsKept s t ∧ t.pc = s.pc ∧ ControlKept s t) (fun _ _ _ h => h) a ws
    ⟨fun _ => rfl, rfl, rfl, rfl⟩

/-! ### The memory of a loaded text -/

/-- Loading a text leaves every key alone at which no line of it stands. -/
theorem lookup_loadWordsAt_other (s : State) (a : Word) {ws : List Word} {b : Nat}
    (hb : ∀ k, k < ws.length → b ≠ (Asm.textAddress a k).toNat) :
    Mem.lookup (s.loadWordsAt a ws).mem b = Mem.lookup s.mem b := by
  induction ws generalizing s a with
  | nil => rfl
  | cons w ws ih =>
    have hfirst : b ≠ a.toNat := Asm.textAddress_zero a ▸ hb 0 (Nat.succ_pos _)
    have hrest : ∀ k, k < ws.length → b ≠ (Asm.textAddress (a + 4#32) k).toNat := fun k hk =>
      Asm.textAddress_succ a k ▸ hb (k + 1) (Nat.succ_lt_succ hk)
    exact (ih (s.load a w) (a + 4#32) hrest).trans (lookup_insert_other s.mem w hfirst)

/-- Each word of a loaded text that fits in the address space is found at the address of its line, since no later line
overwrites it. -/
theorem lookup_loadWordsAt_getElem (s : State) (a : Word) {ws : List Word} (hlen : 4 * ws.length ≤ 2 ^ 32) {k : Nat}
    {w : Word} (hw : ws[k]? = some w) :
    Mem.lookup (s.loadWordsAt a ws).mem (Asm.textAddress a k).toNat = some w := by
  induction ws generalizing s a k with
  | nil => simp at hw
  | cons w' ws ih =>
    rw [List.length_cons] at hlen
    cases k with
    | zero =>
      obtain rfl := Option.some.inj hw
      have hlater : ∀ k, k < ws.length → a.toNat ≠ (Asm.textAddress (a + 4#32) k).toNat := fun k hk h =>
        Asm.textAddress_succ_ne a (by omega) ((Asm.textAddress_succ a k).trans (BitVec.eq_of_toNat_eq h).symm)
      rw [Asm.textAddress_zero]
      exact (lookup_loadWordsAt_other (s.load a w') (a + 4#32) hlater).trans (lookup_insert_same s.mem a.toNat w')
    | succ k =>
      rw [Asm.textAddress_succ]
      exact ih (s.load a w') (a + 4#32) (by omega) hw

/-- Settles O54: below the top of the address space the lines stand at `TEXT_BASE + 4k`, reset leaves no other key
present, and a load changes the memory alone. -/
theorem loadedTextStandsAtItsKeys : Obligations.LoadedTextStandsAtItsKeys := by
  intro p ws hfit
  have hkey : ∀ k, k < ws.length → (Asm.textAddress p.textBase k).toNat = p.textBase.toNat + 4 * k :=
    fun k hk => Asm.toNat_textAddress (by omega)
  refine ⟨fun k w hw => ?present, fun a ha => ?absent, loadWordsAt_frame (State.resetWith p) p.textBase ws⟩
  case present =>
    obtain ⟨hk, -⟩ := List.getElem?_eq_some_iff.mp hw
    rw [← hkey k hk]
    exact lookup_loadWordsAt_getElem _ _ (by omega) hw
  case absent => exact lookup_loadWordsAt_other _ _ fun k hk => hkey k hk ▸ ha k hk

/-! ### The invariant and the reset values -/

theorem resetWith_inv (p : Config.Params) : (State.resetWith p).Inv :=
  ⟨rfl, fun _ => rfl⟩

theorem loadImage_inv {s : State} (text : List Word) (data : List (Word × Word)) (h : s.Inv) :
    (s.loadImage text data).Inv :=
  have hwrite : ∀ (s : State) (a v : Word), s.Inv → (s.memWrite a v).Inv := fun _ a v => memWrite_inv a v
  loadCells_keeps hwrite data (loadWordsAt_keeps hwrite s.params.textBase text h)

/-- Settles O46: the reset memory is empty and its register 0 zero, and a load is memory writes, which keep the
invariant. -/
theorem resetAndLoadMeetTheInvariant : Obligations.ResetAndLoadMeetTheInvariant :=
  ⟨resetWith_inv, resetWith_inv defaultParams, fun _ text data => loadImage_inv text data⟩

/-- Settles O47 by the fields of the reset state; the machine's reset is the one under the defaults. -/
theorem resetValues : Obligations.ResetValues :=
  ⟨fun p => ⟨readReg_reset p, resetWith_pc p, resetWith_runState p, fun _ => rfl⟩, rfl, rfl⟩

end Sys2Proof.Machine
end
